-- ==== Sys2Proof/Word.lean ====
section
/-! DEFINITION. The word types of the block.
Registers and operand words are W bits wide with W in 8, 16, 32 (00_scope.md R6); the model holds each in 32 bits, the
largest width, with the bits from W upwards zero (log 11). -/

namespace Sys2Proof

/-- A register or operand word (00_scope.md R6, `W` at most 32). -/
abbrev Word := BitVec 32

/-- An 8-bit value: the pattern mask and one byte of the address space (10_state.md R25). -/
abbrev Byte := BitVec 8

/-- The header `H` of a command (30_encoding.md R70). -/
abbrev Header := BitVec 16

/-- A register address, `A = 32` bits (20_memory.md R50). -/
abbrev Addr := BitVec 32

/-- `zext_W(0/1)` of one bit (00_scope.md R9). -/
def bitWord (b : Bool) : Word := if b then 1 else 0

end Sys2Proof
end

