-- ==== Sys2Proof/Syntax.lean ====
section
/-! DEFINITION. The commands of the block, whole: one constructor per row of spec/opcode_table.json, and the names they are
made of (00_scope.md R12, 10_state.md R21, 30_encoding.md R73, 60_exceptions.md R211). -/

namespace Sys2Proof

/-- A port index, the 2-bit field `p` (30_encoding.md R71). Whether it is below `NPORTS` is checked when the command runs. -/
abbrev Port := Fin 4

/-- A pin's bit index, the 5-bit field `b` (30_encoding.md R71). Whether it is below `W` is checked when the command runs. -/
abbrev BitIndex := Fin 32

/-- The four registers of a port (10_state.md R21). -/
inductive Reg where
  | clken
  | mode
  | idr
  | odr
  deriving DecidableEq, Repr

/-- The two directions of the pattern (10_state.md R26). -/
inductive Dir where
  | forward
  | reverse
  deriving DecidableEq, Repr

/-- Why the block gives a command, a configuration or a launch no meaning: the closed list of 60_exceptions.md R211. -/
inductive Reason where
  /-- `op` is 0x0, 0xD, 0xE or 0xF (R74). -/
  | reservedOpcode
  /-- A must-be-zero header field or operand word is nonzero (R75). -/
  | reservedField
  /-- The port index used is at least `NPORTS` (R105, R120). -/
  | badPort
  /-- The bit index used is at least `W` (R120). -/
  | badBit
  /-- A register write names CLKEN, MODE or IDR (R105). -/
  | readOnlyRegister
  /-- A pin command names a pin that has not the direction it needs (R120). -/
  | wrongDirection
  /-- PE_FLIP in the Bounce variant (R164). -/
  | flipInBounce
  /-- The configuration fails a check at reset (R241). -/
  | invalidConfig
  /-- A launch has a second bus master that writes the registers (R63, R241). -/
  | secondAgent
  deriving DecidableEq, Repr

/-- The twelve commands (30_encoding.md R73). The operand word stands in 32 bits; `Instr.wf` says it fits `W`. -/
inductive Instr where
  /-- RP_READ (R100). -/
  | rpRead (p : Port) (r : Reg)
  /-- RP_WRITE (R101). -/
  | rpWrite (p : Port) (r : Reg) (word : Word)
  /-- RP_SET (R102). -/
  | rpSet (p : Port) (r : Reg) (mask : Word)
  /-- RP_CLEAR (R103). -/
  | rpClear (p : Port) (r : Reg) (mask : Word)
  /-- RP_TOGGLE (R104). -/
  | rpToggle (p : Port) (r : Reg) (mask : Word)
  /-- PIN_WRITE (R121). -/
  | pinWrite (p : Port) (b : BitIndex) (v : Bool)
  /-- PIN_TOGGLE (R122). -/
  | pinToggle (p : Port) (b : BitIndex)
  /-- PIN_READ (R123). -/
  | pinRead (p : Port) (b : BitIndex)
  /-- ED_POLL (R141). -/
  | edPoll (sample : Bool)
  /-- PE_STEP (R163). -/
  | peStep
  /-- PE_FLIP (R164). -/
  | peFlip
  /-- TICK (R190). -/
  | tick
  deriving DecidableEq, Repr

/-- What the issuer presents: a header and an operand word, always both (30_encoding.md R70). -/
structure Command where
  h : Header
  o : Word
  deriving DecidableEq, Repr

/-- The mnemonic of 30_encoding.md R73. -/
def Instr.mnemonic : Instr → String
  | .rpRead _ _ => "RP_READ"
  | .rpWrite _ _ _ => "RP_WRITE"
  | .rpSet _ _ _ => "RP_SET"
  | .rpClear _ _ _ => "RP_CLEAR"
  | .rpToggle _ _ _ => "RP_TOGGLE"
  | .pinWrite _ _ _ => "PIN_WRITE"
  | .pinToggle _ _ => "PIN_TOGGLE"
  | .pinRead _ _ => "PIN_READ"
  | .edPoll _ => "ED_POLL"
  | .peStep => "PE_STEP"
  | .peFlip => "PE_FLIP"
  | .tick => "TICK"

/-- The operand word of the commands that use `O`; zero for the others (30_encoding.md R73). -/
def Instr.operandWord : Instr → Word
  | .rpRead _ _ => 0
  | .rpWrite _ _ word => word
  | .rpSet _ _ mask => mask
  | .rpClear _ _ mask => mask
  | .rpToggle _ _ mask => mask
  | .pinWrite _ _ _ => 0
  | .pinToggle _ _ => 0
  | .pinRead _ _ => 0
  | .edPoll _ => 0
  | .peStep => 0
  | .peFlip => 0
  | .tick => 0

end Sys2Proof
end

