-- ==== Sys2Proof/Config.lean ====
section
/-! DEFINITION. The configuration of the block: every parameter of 00_scope.md R6, the reference values, and the one free
value of the model. -/

namespace Sys2Proof

/-- The step algorithm (44_pattern_engine.md R160). -/
inductive Variant where
  | rotate
  | bounce
  deriving DecidableEq, Repr

/-- The direction of a pin (10_state.md R23). -/
inductive PinDir where
  | input
  | output
  | unused
  deriving DecidableEq, Repr

/-- The parameters of 00_scope.md R6, and of 70_reset_and_hazards.md R241 check 8. A configuration is fixed from reset and never
changes (R7, R27). Port numbers stand in two bits, which is the range R6 allows them. -/
structure Config where
  /-- `W`, the width of a register and of the operand word. -/
  w : Nat
  /-- `A`, the width of a register address. -/
  a : Nat
  /-- `NPORTS`. -/
  nports : Nat
  /-- `BASE[p]`. -/
  base : Vector Addr 4
  /-- `OFF_CLKEN`. -/
  offClken : Addr
  /-- `OFF_MODE`. -/
  offMode : Addr
  /-- `OFF_IDR`. -/
  offIdr : Addr
  /-- `OFF_ODR`. -/
  offOdr : Addr
  /-- `PINDIR[p][b]`. -/
  pindir : Vector (Vector PinDir 32) 4
  /-- `OUT_PORT`. -/
  outPort : Port
  /-- `PATTERN_LSB`. -/
  patternLsb : Nat
  /-- `IN_PORT`. -/
  inPort : Port
  /-- `BUTTON_BIT`. -/
  buttonBit : Nat
  /-- `INPUT_INVERT`. -/
  inputInvert : Bool
  /-- `VARIANT`. -/
  variant : Variant
  /-- `INIT_MASK`. -/
  initMask : Byte
  /-- `INIT_DIR`. -/
  initDir : Dir
  /-- `TOP`. -/
  top : Byte
  /-- `BOTTOM`. -/
  bottom : Byte
  /-- `TICK_DURATION`. -/
  tickDuration : Nat
  /-- `CLKEN0[p]`. -/
  clken0 : Vector Word 4
  /-- `MODE0[p]`. -/
  mode0 : Vector Word 4
  /-- `ODR0[p]`. -/
  odr0 : Vector Word 4
  /-- Whether a second bus master writes the registers (20_memory.md R63). -/
  secondMaster : Bool
  deriving DecidableEq, Repr

/-- The directions of one port's 32 pins from a list of output and a list of input pins, every other pin unused. -/
def pinsOf (outs ins : List Nat) : Vector PinDir 32 :=
  ⟨((List.range 32).map fun b => if b ∈ outs then .output else if b ∈ ins then .input else .unused).toArray, by simp⟩

/-- The default configuration: the defaults of 00_scope.md R6 and the pin directions and ODR contents that 95_test_vectors.md gives with
them. The OPEN parameters (addresses, tick duration, CLKEN and MODE contents) are DESIGN CHOICE values of the model's
(log 2, 3, 4); statements are made for every configuration and rest on none of them. -/
def Config.reference : Config where
  w := 32
  a := 32
  nports := 2
  base := #v[0x00, 0x10, 0x20, 0x30]
  offClken := 0x0
  offMode := 0x4
  offIdr := 0x8
  offOdr := 0xC
  pindir := #v[pinsOf [0, 1, 2, 3, 4, 5, 6, 7] [], pinsOf [] [0, 2], pinsOf [] [], pinsOf [] []]
  outPort := 0
  patternLsb := 0
  inPort := 1
  buttonBit := 0
  inputInvert := false
  variant := .rotate
  initMask := 0x07
  initDir := .forward
  top := 0xE0
  bottom := 0x07
  tickDuration := 0
  clken0 := #v[0, 0, 0, 0]
  mode0 := #v[0, 0, 0, 0]
  odr0 := #v[0, 0, 0, 0]
  secondMaster := false

/-- FREE VALUE: the `n`-th draw of the environment where the state gives no input word for it (10_state.md R22, 92 D34; log 5).
Nothing constrains it. -/
opaque Config.freeDraw : Nat → Word

end Sys2Proof
end

