-- ==== Sys2Proof/WellFormed.lean ====
section
/-! DEFINITION. Well-formed instructions.
The 2-bit port, the register selector, the 5-bit bit index and the one-bit value are in range by their types
(30_encoding.md R71). What is left to check is that the operand word has no bit at or above `W` (R70). Whether a port, bit or register
is one the configuration admits is no matter of form: such a command can be written and is refused when it runs (R78). -/

namespace Sys2Proof

/-- The word is a W-bit value. -/
def Word.fits (w : Nat) (v : Word) : Bool := decide (v.toNat < 2 ^ w)

/-- The instruction can be encoded in a header and a W-bit operand word (30_encoding.md R70, R71). -/
def Instr.wf (w : Nat) (i : Instr) : Bool := Word.fits w i.operandWord

end Sys2Proof
end

