-- ==== Sys2Proof/Decode.lean ====
section
/-! DEFINITION. Decoding a command, total on every pair `(H, O)` and rejecting by reason, and the encoder beside it
(30_encoding.md R70 to R77, R80). The bit-field helpers of the model stand here too (00_scope.md R8, R9). -/

namespace Sys2Proof

/-- `trunc_W(v)`: the low `W` bits of a word (00_scope.md R9). -/
def truncW (w : Nat) (v : Word) : Word := v &&& BitVec.ofNat 32 (2 ^ w - 1)

/-- `H[15:12]`, the opcode (30_encoding.md R71). -/
def fieldOp (h : Header) : BitVec 4 := h.extractLsb' 12 4

/-- `H[11:10]`, the port index. -/
def fieldPort (h : Header) : Port := (h.extractLsb' 10 2).toFin

/-- `H[9:8]`, the register selector code. -/
def fieldSel (h : Header) : BitVec 2 := h.extractLsb' 8 2

/-- `H[7:3]`, the bit index of a pin. -/
def fieldBit (h : Header) : BitIndex := (h.extractLsb' 3 5).toFin

/-- `H[0]`, the one-bit value. -/
def fieldVal (h : Header) : Bool := h.getLsbD 0

/-- The register a selector code names; all four codes are defined (30_encoding.md R72). -/
def Reg.ofCode (c : BitVec 2) : Reg :=
  match c.toNat with
  | 0 => .clken
  | 1 => .mode
  | 2 => .idr
  | _ => .odr

/-- The selector code of a register (30_encoding.md R72). -/
def Reg.code : Reg → Nat
  | .clken => 0
  | .mode => 1
  | .idr => 2
  | .odr => 3

/-- `H[9:8]` decoded by 30_encoding.md R72. -/
def fieldReg (h : Header) : Reg := Reg.ofCode (fieldSel h)

/-- What the decoder answers: exactly one command with its operands, or one reason (30_encoding.md R77). -/
inductive Decoded where
  | command (i : Instr)
  | refuse (r : Reason)
  deriving DecidableEq, Repr

/-- The must-be-zero check of 30_encoding.md R75: `mbz` marks the header bits that must be zero, `usesO` says that the
command uses its operand word, which otherwise must be zero. -/
def accept (h : Header) (o : Word) (mbz : Header) (usesO : Bool) (i : Instr) : Decoded :=
  if h &&& mbz = 0 ∧ (usesO = true ∨ o = 0) then .command i else .refuse .reservedField

/-- The decoder at register width `w` (30_encoding.md R73 to R77). The port is `W` bits wide, so the operand word has no bit above
`W` (log 14). The range checks of R76 on the port and the bit are made by the command rules in the order of R216. -/
def decode (w : Nat) (cmd : Command) : Decoded :=
  let h := cmd.h
  let o := truncW w cmd.o
  match (fieldOp h).toNat with
  | 0x1 => accept h o 0x00FF false (.rpRead (fieldPort h) (fieldReg h))
  | 0x2 => accept h o 0x00FF true (.rpWrite (fieldPort h) (fieldReg h) o)
  | 0x3 => accept h o 0x00FF true (.rpSet (fieldPort h) (fieldReg h) o)
  | 0x4 => accept h o 0x00FF true (.rpClear (fieldPort h) (fieldReg h) o)
  | 0x5 => accept h o 0x00FF true (.rpToggle (fieldPort h) (fieldReg h) o)
  | 0x6 => accept h o 0x0306 false (.pinWrite (fieldPort h) (fieldBit h) (fieldVal h))
  | 0x7 => accept h o 0x0307 false (.pinToggle (fieldPort h) (fieldBit h))
  | 0x8 => accept h o 0x0307 false (.pinRead (fieldPort h) (fieldBit h))
  | 0x9 => accept h o 0x0FFE false (.edPoll (fieldVal h))
  | 0xA => accept h o 0x0FFF false .peStep
  | 0xB => accept h o 0x0FFF false .peFlip
  | 0xC => accept h o 0x0FFF false .tick
  | _ => .refuse .reservedOpcode

/-- `H = op << 12 | p << 10 | r << 8 | b << 3 | v`, with `res = 0` (30_encoding.md R80). -/
def header (op p r b v : Nat) : Header :=
  BitVec.ofNat 16 (op <<< 12 ||| p <<< 10 ||| r <<< 8 ||| b <<< 3 ||| v)

/-- The opcode of a command (30_encoding.md R73). -/
def Instr.opcode : Instr → Nat
  | .rpRead _ _ => 0x1
  | .rpWrite _ _ _ => 0x2
  | .rpSet _ _ _ => 0x3
  | .rpClear _ _ _ => 0x4
  | .rpToggle _ _ _ => 0x5
  | .pinWrite _ _ _ => 0x6
  | .pinToggle _ _ => 0x7
  | .pinRead _ _ => 0x8
  | .edPoll _ => 0x9
  | .peStep => 0xA
  | .peFlip => 0xB
  | .tick => 0xC

/-- The header of an instruction: its opcode, and the fields 30_encoding.md R73 gives it, every other field zero. -/
def Instr.header (i : Instr) : Header :=
  match i with
  | .rpRead p r => Sys2Proof.header i.opcode p.val r.code 0 0
  | .rpWrite p r _ => Sys2Proof.header i.opcode p.val r.code 0 0
  | .rpSet p r _ => Sys2Proof.header i.opcode p.val r.code 0 0
  | .rpClear p r _ => Sys2Proof.header i.opcode p.val r.code 0 0
  | .rpToggle p r _ => Sys2Proof.header i.opcode p.val r.code 0 0
  | .pinWrite p b v => Sys2Proof.header i.opcode p.val 0 b.val v.toNat
  | .pinToggle p b => Sys2Proof.header i.opcode p.val 0 b.val 0
  | .pinRead p b => Sys2Proof.header i.opcode p.val 0 b.val 0
  | .edPoll s => Sys2Proof.header i.opcode 0 0 0 s.toNat
  | .peStep => Sys2Proof.header i.opcode 0 0 0 0
  | .peFlip => Sys2Proof.header i.opcode 0 0 0 0
  | .tick => Sys2Proof.header i.opcode 0 0 0 0

/-- The header and operand word of an instruction (30_encoding.md R73, R80). -/
def encode (i : Instr) : Command := { h := i.header, o := i.operandWord }

/-- One row of spec/opcode_table.json: the header bits under `mask` equal `pat`, and whether the operand word is used. -/
structure OpRow where
  mnemonic : String
  pat : Header
  mask : Header
  usesO : Bool
  deriving DecidableEq, Repr

/-- The rows of spec/opcode_table.json, in its order, with the operand-word condition of each row's note. -/
def opRows : List OpRow :=
  [ ⟨"RP_READ", 0x1000, 0xF0FF, false⟩,
    ⟨"RP_WRITE", 0x2000, 0xF0FF, true⟩,
    ⟨"RP_SET", 0x3000, 0xF0FF, true⟩,
    ⟨"RP_CLEAR", 0x4000, 0xF0FF, true⟩,
    ⟨"RP_TOGGLE", 0x5000, 0xF0FF, true⟩,
    ⟨"PIN_WRITE", 0x6000, 0xF306, false⟩,
    ⟨"PIN_TOGGLE", 0x7000, 0xF307, false⟩,
    ⟨"PIN_READ", 0x8000, 0xF307, false⟩,
    ⟨"ED_POLL", 0x9000, 0xFFFE, false⟩,
    ⟨"PE_STEP", 0xA000, 0xFFFF, false⟩,
    ⟨"PE_FLIP", 0xB000, 0xFFFF, false⟩,
    ⟨"TICK", 0xC000, 0xFFFF, false⟩ ]

/-- The row matches a command at width `w` (30_encoding.md R73, R75). -/
def OpRow.accepts (row : OpRow) (w : Nat) (cmd : Command) : Bool :=
  decide (cmd.h &&& row.mask = row.pat) && (row.usesO || decide (truncW w cmd.o = 0))

/-- The serial form `H:O`, 16 + W bits with the header in the high bits (30_encoding.md R70). -/
def Command.serial (w : Nat) (cmd : Command) : Nat :=
  cmd.h.toNat * 2 ^ w + (truncW w cmd.o).toNat

/-- The command a serial word `H:O` spells (30_encoding.md R70). -/
def Command.ofSerial (w n : Nat) : Command :=
  { h := BitVec.ofNat 16 (n / 2 ^ w), o := truncW w (BitVec.ofNat 32 (n % 2 ^ w)) }

/-- The command whose bits are numbered as spec/opcode_table.json numbers them: the header is bits 15..0 and the operand word
the bits above; every bit from `nbits` upwards is zero (log 21). -/
def tableCommand (nbits w : Nat) : Command :=
  let x := w % 2 ^ nbits
  { h := BitVec.ofNat 16 x, o := BitVec.ofNat 32 (x / 2 ^ 16) }

/-- The instruction the decoder reads from a table word, at the default width 32 (00_scope.md R6). -/
def decodeTableWord (nbits w : Nat) : Option Instr :=
  match decode 32 (tableCommand nbits w) with
  | .command i => some i
  | .refuse _ => none

/-- The pseudo-instructions that stand for one command (30_encoding.md R79). -/
inductive Pseudo where
  /-- `pin.set p, b`. -/
  | pinSet (p : Port) (b : BitIndex)
  /-- `pin.clr p, b`. -/
  | pinClr (p : Port) (b : BitIndex)
  /-- `rp.readodr p`. -/
  | rpReadOdr (p : Port)
  deriving DecidableEq, Repr

/-- The command a pseudo-instruction expands to (30_encoding.md R79). -/
def Pseudo.expand : Pseudo → Instr
  | .pinSet p b => .pinWrite p b true
  | .pinClr p b => .pinWrite p b false
  | .rpReadOdr p => .rpRead p .odr

/-- A register's name in the assembler (30_encoding.md R78). -/
def Reg.asm : Reg → String
  | .clken => "CLKEN"
  | .mode => "MODE"
  | .idr => "IDR"
  | .odr => "ODR"

/-- A word or mask in the assembler: `0x` and hexadecimal digits (30_encoding.md R78, 00_scope.md R8). R78 admits binary as well; that
the model prints hexadecimal, in capitals and without leading zeros, is its choice (DESIGN CHOICE, log 24). -/
def hexAsm (n : Nat) : String := "0x" ++ String.ofList ((Nat.toDigits 16 n).map Char.toUpper)

/-- The assembler line of an instruction (30_encoding.md R78). Ports, bit indices and one-bit values are printed in decimal with no
prefix, so bit 31 is `31`: the spec writes values in hexadecimal or binary and shows unprefixed numbers only up to 9
(DESIGN CHOICE, log 24). -/
def Instr.asm : Instr → String
  | .rpRead p r => "rp.read " ++ toString p.val ++ ", " ++ r.asm
  | .rpWrite p r word => "rp.write " ++ toString p.val ++ ", " ++ r.asm ++ ", " ++ hexAsm word.toNat
  | .rpSet p r mask => "rp.set " ++ toString p.val ++ ", " ++ r.asm ++ ", " ++ hexAsm mask.toNat
  | .rpClear p r mask => "rp.clear " ++ toString p.val ++ ", " ++ r.asm ++ ", " ++ hexAsm mask.toNat
  | .rpToggle p r mask => "rp.toggle " ++ toString p.val ++ ", " ++ r.asm ++ ", " ++ hexAsm mask.toNat
  | .pinWrite p b v => "pin.write " ++ toString p.val ++ ", " ++ toString b.val ++ ", " ++ toString v.toNat
  | .pinToggle p b => "pin.toggle " ++ toString p.val ++ ", " ++ toString b.val
  | .pinRead p b => "pin.read " ++ toString p.val ++ ", " ++ toString b.val
  | .edPoll s => "ed.poll " ++ toString s.toNat
  | .peStep => "pe.step"
  | .peFlip => "pe.flip"
  | .tick => "tick"

end Sys2Proof
end

