-- ==== Sys2Proof/Machine/Launch.lean ====
section
/-! DEFINITION. What a configuration fixes: register addresses, pin directions, and the checks made at reset
(20_memory.md R50 to R52, 10_state.md R23, 70_reset_and_hazards.md R241). -/

namespace Sys2Proof

/-- `p < NPORTS` (41_register_port.md R105). -/
def Config.hasPort (c : Config) (p : Port) : Bool := decide (p.val < c.nports)

/-- `PINDIR[p][b]` (10_state.md R23); a bit no register can have is no pin. -/
def Config.pinDir (c : Config) (p : Port) (b : Nat) : PinDir :=
  if h : b < 32 then (c.pindir[p])[b] else .unused

/-- `OFF_r` (00_scope.md R6). -/
def Config.offset (c : Config) : Reg → Addr
  | .clken => c.offClken
  | .mode => c.offMode
  | .idr => c.offIdr
  | .odr => c.offOdr

/-- `addr(p, r) = BASE[p] + OFF_r`, modulo 2^A (20_memory.md R50). -/
def Config.addr (c : Config) (p : Port) (r : Reg) : Addr := c.base[p] + c.offset r

/-- The bytes of one access, `W/8` (20_memory.md R51). -/
def Config.accessBytes (c : Config) : Nat := c.w / 8

/-- The registers the block reaches, four for each port below `NPORTS` (20_memory.md R50). -/
def Config.registers (c : Config) : List (Port × Reg) :=
  (([0, 1, 2, 3] : List Port).filter c.hasPort).flatMap fun p => [(p, .clken), (p, .mode), (p, .idr), (p, .odr)]

/-- Checks 1 to 7 of 70_reset_and_hazards.md R241. Check 7 holds by the types of the fields it names. -/
def Config.valid (c : Config) : Bool :=
  -- 1
  (c.w == 8 || c.w == 16 || c.w == 32) && c.a == 32 && decide (1 ≤ c.nports) && decide (c.nports ≤ 4)
  -- 2
  && c.hasPort c.outPort && c.hasPort c.inPort
  -- 3
  && decide (c.patternLsb + 8 ≤ c.w) && decide (c.buttonBit < c.w)
  -- 4
  && ([0, 1, 2, 3, 4, 5, 6, 7] : List Nat).all (fun i => c.pinDir c.outPort (c.patternLsb + i) == .output)
  -- 5
  && c.pinDir c.inPort c.buttonBit == .input
  -- 6
  && c.registers.all (fun pr => (c.addr pr.1 pr.2).toNat % c.accessBytes == 0)
  && decide ((c.registers.map fun pr => c.addr pr.1 pr.2).Nodup)

/-- Why a configuration or launch is refused at reset, if it is (70_reset_and_hazards.md R241): `InvalidConfig`, or `SecondAgent` for
check 8. That `InvalidConfig` is reported where both apply is log 13. -/
def Config.check (c : Config) : Option Reason :=
  if c.valid then (if c.secondMaster then some .secondAgent else none) else some .invalidConfig

/-- The register and the byte within it at a byte address, if the address is one of the block's
(20_memory.md R50, R53, R64). -/
def Config.locate (c : Config) (a : Nat) : Option (Port × Reg × Nat) :=
  (c.registers.find? fun pr =>
      decide ((c.addr pr.1 pr.2).toNat ≤ a) && decide (a < (c.addr pr.1 pr.2).toNat + c.accessBytes)).map
    fun pr => (pr.1, pr.2, a - (c.addr pr.1 pr.2).toNat)

/-- Byte `k` of a word, bits `8k+7 : 8k`: little-endian (20_memory.md R53, log 16). -/
def byteOf (v : Word) (k : Nat) : Byte := v.extractLsb' (8 * k) 8

end Sys2Proof
end

