-- ==== Sys2Proof/Machine/State.lean ====
section
/-! DEFINITION. The state of the block, as plain data: the tuple of 10_state.md R20, the configuration that is a parameter of every
step (R27, log 1), and the model's own two fields for the issuer and the environment (log 5, 6). -/

namespace Sys2Proof.Machine

/-- The stored registers of one port (10_state.md R21). IDR holds no state (R22). -/
structure PortRegs where
  clken : Word
  mode : Word
  odr : Word
  deriving DecidableEq, Repr

/-- What a slot holds that no port below `NPORTS` uses (log 12). -/
def PortRegs.absent : PortRegs := { clken := 0, mode := 0, odr := 0 }

/-- The register memory of the block. It has no other memory (20_memory.md R50). -/
abbrev Memory := Vector PortRegs 4

/-- The words of one port are W-bit values. -/
def PortRegs.fits (w : Nat) (pr : PortRegs) : Bool := Word.fits w pr.clken && Word.fits w pr.mode && Word.fits w pr.odr

/-- The canonical form of the register memory: each word is a W-bit value, and the slots of absent ports hold zeros. Equal memories are
equal data. -/
def Memory.wf (c : Config) (m : Memory) : Bool :=
  ([0, 1, 2, 3] : List Port).all fun p => if c.hasPort p then m[p].fits c.w else m[p] == PortRegs.absent

/-- A value returned to the issuer, tagged with its width (10_state.md R30). -/
inductive Response where
  /-- `width` bits, the W of RP_READ. -/
  | word (width : Nat) (v : Word)
  /-- One bit: PIN_READ and ED_POLL. -/
  | bit (v : Bool)
  /-- Eight bits: PE_STEP. -/
  | mask (v : Byte)
  deriving DecidableEq, Repr

/-- One event of the history (10_state.md R30). -/
inductive Event where
  | rd (p : Port) (r : Reg) (v : Word)
  | wr (p : Port) (r : Reg) (v : Word)
  | resp (v : Response)
  | delayStart (d : Nat)
  | delayEnd
  deriving DecidableEq, Repr

/-- The command port's other side (30_encoding.md R70, 45_control_loop.md R195; log 6). -/
structure Issuer where
  /-- Commands presented and not yet taken, the next one first. -/
  queue : List Command
  /-- The command sent without end once the queue is empty, if there is one (`loop`, 30_encoding.md R79). -/
  repeats : Option Command
  deriving DecidableEq, Repr

/-- The environment that supplies the draws (10_state.md R22; log 5). -/
structure Env where
  /-- What the next IDR reads return, the next one first. -/
  inputs : List Word
  /-- How many draws have been made; it selects the free value when `inputs` is empty. -/
  draws : Nat
  deriving DecidableEq, Repr

/-- The state of the block and of what it is connected to. -/
structure State where
  /-- The configuration, which no step writes (10_state.md R27; log 1). -/
  cfg : Config
  /-- `regs` (10_state.md R21). -/
  regs : Memory
  /-- `ed.prev` (10_state.md R24). -/
  prev : Bool
  /-- `pe.mask` (10_state.md R25). -/
  mask : Byte
  /-- `pe.dir` (10_state.md R26). -/
  dir : Dir
  /-- `busy` (10_state.md R28). -/
  busy : Bool
  /-- `refused` (10_state.md R29): 1 is `some`, with the reason that set it (92 D32; log 8). -/
  refused : Option Reason
  /-- `hist`, oldest event first (10_state.md R30). -/
  hist : List Event
  /-- MODEL'S OWN: what the issuer presents (log 6). -/
  issuer : Issuer
  /-- MODEL'S OWN: what the input lines will read (log 5). -/
  env : Env
  deriving DecidableEq, Repr

/-- Why the machine stops. -/
inductive Fault where
  /-- Raised by `step` alone, when the sticky mark is set: the block has no further step until reset (60_exceptions.md R212, 93 U11).
  SAFE: nothing can be proved of a run beyond it (log 9). -/
  | stuckAfterRefusal
  deriving DecidableEq, Repr

/-- Why an instruction has no meaning in the model. -/
inductive Refusal where
  /-- Raised by `exec` for an arm that has no meaning yet; no arm does so now. SAFE. -/
  | notModelled (mnemonic : String)
  deriving DecidableEq, Repr

/-- The register contents Peripheral Setup left, at the width of a register (70_reset_and_hazards.md R240). -/
def launchRegs (c : Config) (p : Port) : PortRegs :=
  if c.hasPort p then
    { clken := truncW c.w c.clken0[p], mode := truncW c.w c.mode0[p], odr := truncW c.w c.odr0[p] }
  else PortRegs.absent

/-- The state right after reset under a configuration (70_reset_and_hazards.md R240, 10_state.md R32). Nothing is presented and no input is
given beforehand (log 5, 6). -/
def State.resetOf (c : Config) : State where
  cfg := c
  regs := #v[launchRegs c 0, launchRegs c 1, launchRegs c 2, launchRegs c 3]
  prev := false
  mask := c.initMask
  dir := c.initDir
  busy := false
  refused := c.check
  hist := []
  issuer := { queue := [], repeats := none }
  env := { inputs := [], draws := 0 }

/-- The state right after reset under the default configuration (00_scope.md R6, 95_test_vectors.md; log 2, 3, 4). -/
def State.reset : State := State.resetOf Config.reference

end Sys2Proof.Machine
end

