-- ==== Sys2Proof/Machine/Flags.lean ====
section
/-! DEFINITION. The one-bit result the block computes. It has no status flags or condition codes (10_state.md R31): NoEdge and RisingEdge
are a response of a command and not stored. -/

namespace Sys2Proof.Machine

/-- `edge(prev, s)`: a rising edge if and only if the previous sample was 0 and the current one is 1 (43_edge_detector.md R140). -/
def edge (prev s : Bool) : Bool := !prev && s

/-- `popcount8(x)`, the number of 1 bits (00_scope.md R9). -/
def popcount8 (x : Byte) : Nat := (List.range 8).countP fun i => x.getLsbD i

end Sys2Proof.Machine
end

