-- ==== Sys2Proof/Machine/Ops.lean ====
section
/-! DEFINITION. The named operations over the registers, the history, the issuer and the environment: RegRead, RegWrite, respond, refuse
(00_scope.md R10), the delay, and taking a command. The block has no exceptions (60_exceptions.md R210); `State.refuse` is the one
shared operation a command that is given no meaning ends in (R212). -/

namespace Sys2Proof.Machine

/-! ### The history -/

/-- `hist <- hist ++ [e]` (10_state.md R30). -/
def State.record (s : State) (e : Event) : State := { s with hist := s.hist ++ [e] }

/-- `respond(v)` (00_scope.md R10, 10_state.md R30). -/
def State.respond (s : State) (v : Response) : State := s.record (.resp v)

/-! ### The environment's draws -/

/-- The next draw: the next input word, or the free value where none is given (20_memory.md R54; log 5). -/
def Env.next (e : Env) : Word :=
  match e.inputs with
  | x :: _ => x
  | [] => Config.freeDraw e.draws

/-- The environment after one draw. -/
def Env.advance (e : Env) : Env := { inputs := e.inputs.tail, draws := e.draws + 1 }

/-! ### Register accesses -/

/-- The word a port's stored register holds; IDR stores none (10_state.md R21, R22). -/
def State.stored (s : State) (p : Port) (r : Reg) : Option Word :=
  match r with
  | .clken => some s.regs[p].clken
  | .mode => some s.regs[p].mode
  | .idr => none
  | .odr => some s.regs[p].odr

/-- What `RegRead(p, r)` returns: the stored word, or for IDR a draw at width W (20_memory.md R54). -/
def State.readValue (s : State) (p : Port) (r : Reg) : Word :=
  match r with
  | .clken => s.regs[p].clken
  | .mode => s.regs[p].mode
  | .idr => truncW s.cfg.w s.env.next
  | .odr => s.regs[p].odr

/-- The state `RegRead(p, r)` leaves: the read recorded, and for IDR the draw made (20_memory.md R54, R55). -/
def State.afterRead (s : State) (p : Port) (r : Reg) : State :=
  match r with
  | .clken => s.record (.rd p .clken (s.readValue p .clken))
  | .mode => s.record (.rd p .mode (s.readValue p .mode))
  | .idr => { s with env := s.env.advance, hist := s.hist ++ [.rd p .idr (s.readValue p .idr)] }
  | .odr => s.record (.rd p .odr (s.readValue p .odr))

/-- `RegRead(p, r)` (20_memory.md R54): the value and the state after it. -/
def State.regRead (s : State) (p : Port) (r : Reg) : Word × State := (s.readValue p r, s.afterRead p r)

/-- `RegWrite(p, ODR, v)` (20_memory.md R54): the whole W-bit word, performed and recorded even when the value is unchanged (R55). -/
def State.regWrite (s : State) (p : Port) (v : Word) : State :=
  { s with
    regs := s.regs.set p { s.regs[p] with odr := truncW s.cfg.w v }
    hist := s.hist ++ [.wr p .odr (truncW s.cfg.w v)] }

/-- One read of ODR and one write of what `f` makes of it (20_memory.md R56). -/
def State.readModifyWrite (s : State) (p : Port) (f : Word → Word) : State :=
  let rd := s.regRead p .odr
  rd.2.regWrite p (f rd.1)

/-- The byte at an address of the block's address space: a byte of a stored register, and nothing for IDR and for an address that
is not the block's (20_memory.md R50, R53, R64; log 16). No command reads single bytes. -/
def State.readByte (s : State) (a : Nat) : Option Byte :=
  match s.cfg.locate a with
  | some (p, r, k) => (s.stored p r).map fun v => byteOf v k
  | none => none

/-! ### Refusals -/

/-- `refuse(Reason)`: the sticky mark is set and nothing else changes (60_exceptions.md R212; log 8). -/
def State.refuse (s : State) (r : Reason) : State := { s with refused := some r }

/-- The checks of a command rule come before its first access; the first that fails refuses the command, and otherwise it runs
(00_scope.md R11, 60_exceptions.md R216). -/
def guarded (check : Option Reason) (s : State) (run : State → State) : Host.Outcome State Fault Refusal :=
  match check with
  | some r => .next (s.refuse r)
  | none => .next (run s)

/-! ### The delay -/

/-- TICK enters its delay: `DelayStart(TICK_DURATION)` is recorded and `busy <- 1` (45_control_loop.md R193). -/
def State.delayStart (s : State) : State := { s with busy := true, hist := s.hist ++ [.delayStart s.cfg.tickDuration] }

/-- The environment's DelayEnd step (45_control_loop.md R194). -/
def State.delayEnd (s : State) : State := { s with busy := false, hist := s.hist ++ [.delayEnd] }

/-! ### The command port -/

/-- The command presented at the port, and the issuer once it has been taken (30_encoding.md R70, 45_control_loop.md R195; log 6). -/
def Issuer.take (i : Issuer) : Option (Command × Issuer) :=
  match i.queue with
  | cmd :: rest => some (cmd, { i with queue := rest })
  | [] => i.repeats.map fun cmd => (cmd, i)

/-- The issuer that presents one more command before all others. -/
def Issuer.present (i : Issuer) (cmd : Command) : Issuer := { i with queue := cmd :: i.queue }

/-- The reference program `loop`: `tick` without end (30_encoding.md R79, 45_control_loop.md R195). -/
def Issuer.loop : Issuer := { queue := [], repeats := some (encode .tick) }

/-- The state with another issuer. -/
def State.withIssuer (s : State) (i : Issuer) : State := { s with issuer := i }

/-- The block takes the command presented (92 D1). -/
def State.takeCommand (s : State) : Option (Command × State) :=
  s.issuer.take.map fun ci => (ci.1, s.withIssuer ci.2)

end Sys2Proof.Machine
end

