-- ==== Sys2Proof/Machine/EdgeDetector.lean ====
section
/-! DEFINITION. The Edge Detector (43_edge_detector.md). It has no debounce filter (R144, 90_conflicts.md C1). -/

namespace Sys2Proof.Machine

/-- `ed.prev <- s`, edge or not (R141). -/
def State.setPrev (s : State) (smp : Bool) : State := { s with prev := smp }

/-- ED_POLL (R141). -/
def execEdPoll (smp : Bool) (s : State) : Host.Outcome State Fault Refusal :=
  guarded none s fun s => (s.setPrev smp).respond (.bit (edge s.prev smp))

end Sys2Proof.Machine
end

