-- ==== Sys2Proof/Machine/Operands.lean ====
section
/-! DEFINITION. The operand checks and operand values of the command rules (30_encoding.md R76, 41_register_port.md R105,
42_digital_pin.md R120, 45_control_loop.md R191, R192). -/

namespace Sys2Proof.Machine

/-- `check_port(p)` (41_register_port.md R105). -/
def checkPort (c : Config) (p : Port) : Option Reason := if c.hasPort p then none else some .badPort

/-- `check_writable(r)` (41_register_port.md R105). -/
def checkWritable (r : Reg) : Option Reason := if r = .odr then none else some .readOnlyRegister

/-- The bit check of `check_pin` (42_digital_pin.md R120). -/
def checkBit (c : Config) (b : BitIndex) : Option Reason := if b.val < c.w then none else some .badBit

/-- The direction check of `check_pin` (42_digital_pin.md R120). -/
def checkDir (c : Config) (p : Port) (b : BitIndex) (d : PinDir) : Option Reason :=
  if c.pinDir p b.val = d then none else some .wrongDirection

/-- `check_pin(p, b, d)`: port, bit, direction, in that order (42_digital_pin.md R120). -/
def checkPin (c : Config) (p : Port) (b : BitIndex) (d : PinDir) : Option Reason :=
  ((checkPort c p).or (checkBit c b)).or (checkDir c p b d)

/-- The checks of a register write: port, then register (41_register_port.md R101 to R105). -/
def checkWrite (c : Config) (p : Port) (r : Reg) : Option Reason := (checkPort c p).or (checkWritable r)

/-- The check of PE_FLIP (44_pattern_engine.md R164). -/
def checkFlip (c : Config) : Option Reason := if c.variant = .bounce then some .flipInBounce else none

/-- `1 << b` (42_digital_pin.md R121). -/
def bitMask (b : BitIndex) : Word := (1 : Word) <<< b.val

/-- `(old & ~(1 << b)) | (zext_W(v) << b)` (42_digital_pin.md R121). -/
def pinValue (b : BitIndex) (v : Bool) (old : Word) : Word := (old &&& ~~~(bitMask b)) ||| (bitWord v <<< b.val)

/-- `(x >> b) & 1` (42_digital_pin.md R123). -/
def pinLevel (b : BitIndex) (x : Word) : Bool := (x >>> b.val) &&& 1 = 1

/-- `x[BUTTON_BIT] ^ bit(INPUT_INVERT)` (45_control_loop.md R191). -/
def sample (c : Config) (x : Word) : Bool := Bool.xor (x.getLsbD c.buttonBit) c.inputInvert

/-- `zext_W(0xFF) << PATTERN_LSB` (45_control_loop.md R192). -/
def spanMask (c : Config) : Word := (0xFF : Word) <<< c.patternLsb

/-- `pattern_merge(o, m)` (45_control_loop.md R192). -/
def patternMerge (c : Config) (o : Word) (m : Byte) : Word :=
  (o &&& ~~~(spanMask c)) ||| (m.setWidth 32 <<< c.patternLsb)

end Sys2Proof.Machine
end

