-- ==== Sys2Proof/Machine/PatternEngine.lean ====
section
/-! DEFINITION. The Pattern Engine (44_pattern_engine.md): the Rotate and Bounce steps and the direction flip. -/

namespace Sys2Proof.Machine

/-- The other direction (R164). -/
def flipDir : Dir → Dir
  | .forward => .reverse
  | .reverse => .forward

/-- The bit the direction is encoded as: Forward 0, Reverse 1 (10_state.md R26). -/
def dirBit : Dir → BitVec 1
  | .forward => 0
  | .reverse => 1

/-- `rotl8(x)`: bit 7 wraps to bit 0 (R161). -/
def rotl8 (x : Byte) : Byte := (x <<< 1) ||| (x >>> 7)

/-- `rotr8(x)`: bit 0 wraps to bit 7 (R161). -/
def rotr8 (x : Byte) : Byte := (x >>> 1) ||| (x <<< 7)

/-- `rotate_next(m, d)` (R161). -/
def rotateNext (m : Byte) (d : Dir) : Byte × Dir :=
  match d with
  | .forward => (rotl8 m, .forward)
  | .reverse => (rotr8 m, .reverse)

/-- `bounce_next(m, d)`: logical shifts with zero fill, the boundary tested on the mask before the step (R162). -/
def bounceNext (top bottom m : Byte) (d : Dir) : Byte × Dir :=
  match d with
  | .forward => if m = top then (m >>> 1, .reverse) else (m <<< 1, .forward)
  | .reverse => if m = bottom then (m <<< 1, .forward) else (m >>> 1, .reverse)

/-- One step of the engine under a configuration (R160, R163). -/
def patternNext (c : Config) (m : Byte) (d : Dir) : Byte × Dir :=
  match c.variant with
  | .rotate => rotateNext m d
  | .bounce => bounceNext c.top c.bottom m d

/-- `pe.mask <- m'` and `pe.dir <- d'` (R163). -/
def State.stepPattern (s : State) : State :=
  { s with mask := (patternNext s.cfg s.mask s.dir).1, dir := (patternNext s.cfg s.mask s.dir).2 }

/-- The direction flips in place and the mask does not change (R164). -/
def State.flip (s : State) : State := { s with dir := flipDir s.dir }

/-- PE_STEP (R163). -/
def execPeStep (s : State) : Host.Outcome State Fault Refusal :=
  guarded none s fun s => s.stepPattern.respond (.mask s.stepPattern.mask)

/-- PE_FLIP, refused in the Bounce variant (R164). -/
def execPeFlip (s : State) : Host.Outcome State Fault Refusal :=
  guarded (checkFlip s.cfg) s State.flip

end Sys2Proof.Machine
end

