-- ==== Sys2Proof/Machine/ControlLoop.lean ====
section
/-! DEFINITION. The Control Loop command (45_control_loop.md). -/

namespace Sys2Proof.Machine

/-- Steps 2 and 3 of TICK: poll the detector with a sample, and flip the direction on a rising edge in the Rotate variant only
(R190, R196). -/
def State.pollAndFlip (s : State) (smp : Bool) : State :=
  if edge s.prev smp = true ∧ s.cfg.variant = .rotate then (s.setPrev smp).flip else s.setPrev smp

/-- Step 5 of TICK: the pattern is written to its span of ODR, every other bit preserved, by one read and one write (R192). -/
def State.showPattern (s : State) : State :=
  s.readModifyWrite s.cfg.outPort fun old => patternMerge s.cfg old s.mask

/-- TICK, one pass of the Control Loop (R190): sample, poll, flip, step, write the pattern, enter the delay. -/
def execTick (s : State) : Host.Outcome State Fault Refusal :=
  guarded none s fun s =>
    let rd := s.regRead s.cfg.inPort .idr
    let polled := rd.2.pollAndFlip (sample s.cfg rd.1)
    polled.stepPattern.showPattern.delayStart

end Sys2Proof.Machine
end

