-- ==== Sys2Proof/Machine/DigitalPin.lean ====
section
/-! DEFINITION. The Digital Pin commands (42_digital_pin.md): an output pin is a bit of ODR, an input pin a bit of IDR (R120). -/

namespace Sys2Proof.Machine

/-- PIN_WRITE (R121). -/
def execPinWrite (p : Port) (b : BitIndex) (v : Bool) (s : State) : Host.Outcome State Fault Refusal :=
  guarded (checkPin s.cfg p b .output) s fun s => s.readModifyWrite p (pinValue b v)

/-- PIN_TOGGLE (R122). -/
def execPinToggle (p : Port) (b : BitIndex) (s : State) : Host.Outcome State Fault Refusal :=
  guarded (checkPin s.cfg p b .output) s fun s => s.readModifyWrite p fun old => old ^^^ bitMask b

/-- PIN_READ (R123). The level is the raw line, never inverted (92 D35). -/
def execPinRead (p : Port) (b : BitIndex) (s : State) : Host.Outcome State Fault Refusal :=
  guarded (checkPin s.cfg p b .input) s fun s =>
    let rd := s.regRead p .idr
    rd.2.respond (.bit (pinLevel b rd.1))

end Sys2Proof.Machine
end

