-- ==== Sys2Proof/Machine/RegisterPort.lean ====
section
/-! DEFINITION. The Register Port commands (41_register_port.md). -/

namespace Sys2Proof.Machine

/-- RP_READ (R100). -/
def execRpRead (p : Port) (r : Reg) (s : State) : Host.Outcome State Fault Refusal :=
  guarded (checkPort s.cfg p) s fun s =>
    let rd := s.regRead p r
    rd.2.respond (.word s.cfg.w rd.1)

/-- RP_WRITE (R101). -/
def execRpWrite (p : Port) (r : Reg) (word : Word) (s : State) : Host.Outcome State Fault Refusal :=
  guarded (checkWrite s.cfg p r) s fun s => s.regWrite p word

/-- RP_SET (R102). -/
def execRpSet (p : Port) (r : Reg) (mask : Word) (s : State) : Host.Outcome State Fault Refusal :=
  guarded (checkWrite s.cfg p r) s fun s => s.readModifyWrite p fun old => old ||| mask

/-- RP_CLEAR (R103). -/
def execRpClear (p : Port) (r : Reg) (mask : Word) (s : State) : Host.Outcome State Fault Refusal :=
  guarded (checkWrite s.cfg p r) s fun s => s.readModifyWrite p fun old => old &&& ~~~mask

/-- RP_TOGGLE (R104). -/
def execRpToggle (p : Port) (r : Reg) (mask : Word) (s : State) : Host.Outcome State Fault Refusal :=
  guarded (checkWrite s.cfg p r) s fun s => s.readModifyWrite p fun old => old ^^^ mask

end Sys2Proof.Machine
end

