-- ==== Sys2Proof/Machine/Dispatch.lean ====
section
/-! DEFINITION. One arm per command: the meaning each opcode-table row has. Whether a command is taken at all (the sticky mark, the delay)
is decided before it is decoded, in Machine/Step.lean (60_exceptions.md R216; log 23). -/

namespace Sys2Proof.Machine

def exec (i : Instr) (s : State) : Host.Outcome State Fault Refusal :=
  match i with
  | .rpRead p r => Sys2Proof.Machine.execRpRead p r s
  | .rpWrite p r word => Sys2Proof.Machine.execRpWrite p r word s
  | .rpSet p r mask => Sys2Proof.Machine.execRpSet p r mask s
  | .rpClear p r mask => Sys2Proof.Machine.execRpClear p r mask s
  | .rpToggle p r mask => Sys2Proof.Machine.execRpToggle p r mask s
  | .pinWrite p b v => Sys2Proof.Machine.execPinWrite p b v s
  | .pinToggle p b => Sys2Proof.Machine.execPinToggle p b s
  | .pinRead p b => Sys2Proof.Machine.execPinRead p b s
  | .edPoll smp => Sys2Proof.Machine.execEdPoll smp s
  | .peStep => Sys2Proof.Machine.execPeStep s
  | .peFlip => Sys2Proof.Machine.execPeFlip s
  | .tick => Sys2Proof.Machine.execTick s

end Sys2Proof.Machine
end

