-- ==== Sys2Proof/Machine/Step.lean ====
section
/-! DEFINITION. One step of the block, in the priority order of 60_exceptions.md R216, and how a command is placed at the port. -/

namespace Sys2Proof.Machine

/-- One step. With the sticky mark set there is none (R212). During the delay a command holds at the port and the one step is the
environment's DelayEnd (R213, 45_control_loop.md R194; log 10). Otherwise the command presented is taken, decoded, and refused or
run; with none presented the block waits (log 6). -/
def step (s : State) : Host.Outcome State Fault Refusal :=
  match s.refused with
  | some _ => .fault .stuckAfterRefusal
  | none =>
    if s.busy then .next s.delayEnd
    else
      match s.takeCommand with
      | none => .next s
      | some (cmd, s') =>
        match decode s.cfg.w cmd with
        | .refuse r => .next (s'.refuse r)
        | .command i => exec i s'

/-- The state with the command of a table word presented at the port ahead of all others (log 7, 21). -/
def State.withFetchWord (s : State) (nbits w : Nat) : State :=
  { s with issuer := s.issuer.present (tableCommand nbits w) }

end Sys2Proof.Machine
end

