-- ==== Sys2Proof/Safety.lean ====
section
/-! DEFINITION. What counts as a good state and a good history, in the terms the statements use. -/

namespace Sys2Proof

/-- The address lies in the bytes of register `r` of port `p` (20_memory.md R51). -/
abbrev Config.inRegister (c : Config) (p : Port) (r : Reg) (a : Nat) : Prop :=
  (c.addr p r).toNat ≤ a ∧ a < (c.addr p r).toNat + c.accessBytes

/-! ### Malformed commands, by the fields of the header (60_exceptions.md R216, lines 3 and 4) -/

/-- The opcode is one of the four reserved ones (30_encoding.md R74). -/
abbrev Header.HasReservedOpcode (h : Header) : Prop :=
  fieldOp h = 0x0 ∨ fieldOp h = 0xD ∨ fieldOp h = 0xE ∨ fieldOp h = 0xF

/-- A field that 30_encoding.md R73 says must be zero is not, for the opcode the header has: bits 2..1 always; the fields the
command does not use; and the operand word for every command but RP_WRITE, RP_SET, RP_CLEAR and RP_TOGGLE (R75). -/
abbrev Command.HasNonzeroReservedField (w : Nat) (cmd : Command) : Prop :=
  cmd.h.extractLsb' 1 2 ≠ 0 ∨
  ((fieldOp cmd.h).toNat ≤ 5 ∧ (cmd.h.extractLsb' 3 5 ≠ 0 ∨ cmd.h.getLsbD 0 = true)) ∨
  ((fieldOp cmd.h).toNat = 6 ∧ cmd.h.extractLsb' 8 2 ≠ 0) ∨
  (7 ≤ (fieldOp cmd.h).toNat ∧ (fieldOp cmd.h).toNat ≤ 8 ∧ (cmd.h.extractLsb' 8 2 ≠ 0 ∨ cmd.h.getLsbD 0 = true)) ∨
  (9 ≤ (fieldOp cmd.h).toNat ∧ cmd.h.extractLsb' 3 9 ≠ 0) ∨
  (10 ≤ (fieldOp cmd.h).toNat ∧ cmd.h.getLsbD 0 = true) ∨
  ((fieldOp cmd.h).toNat ≠ 2 ∧ (fieldOp cmd.h).toNat ≠ 3 ∧ (fieldOp cmd.h).toNat ≠ 4 ∧ (fieldOp cmd.h).toNat ≠ 5 ∧
    truncW w cmd.o ≠ 0)

end Sys2Proof

namespace Sys2Proof.Machine

/-- A command presented now is taken: no refusal, no delay (60_exceptions.md R216, lines 1 and 2). -/
abbrev State.Ready (s : State) : Prop := s.refused = none ∧ s.busy = false

/-- Whether a history ends inside a delay (45_control_loop.md R193, R194). -/
def delayOpen (h : List Event) : Bool :=
  h.foldl (fun b e =>
    match e with
    | .delayStart _ => true
    | .delayEnd => false
    | .rd _ _ _ => b
    | .wr _ _ _ => b
    | .resp _ => b) false

/-- The value ODR of a port holds after a history, from the value it held before (20_memory.md R57). -/
def lastWrite (p : Port) (init : Word) (h : List Event) : Word :=
  h.foldl (fun v e =>
    match e with
    | .wr q r x => if q = p ∧ r = .odr then x else v
    | .rd _ _ _ => v
    | .resp _ => v
    | .delayStart _ => v
    | .delayEnd => v) init

/-- The words written to a port's ODR, oldest first: the block's visible output (10_state.md R30). -/
def odrWrites (p : Port) (h : List Event) : List Word :=
  h.filterMap fun e =>
    match e with
    | .wr q r x => if q = p ∧ r = .odr then some x else none
    | .rd _ _ _ => none
    | .resp _ => none
    | .delayStart _ => none
    | .delayEnd => none

/-- The invariant of the block: a state that can step has a configuration R241 admits, the register memory is in canonical form, CLKEN and
MODE hold what Setup left (10_state.md R21), the delay bit agrees with the history, and in the Rotate variant the number of lit LEDs
is the initial one (44_pattern_engine.md R165). -/
abbrev State.Inv (s : State) : Prop :=
  (s.refused = none → s.cfg.check = none) ∧
  Memory.wf s.cfg s.regs = true ∧
  (∀ p : Port, s.regs[p].clken = (launchRegs s.cfg p).clken ∧ s.regs[p].mode = (launchRegs s.cfg p).mode) ∧
  s.busy = delayOpen s.hist ∧
  (s.cfg.variant = .rotate → popcount8 s.mask = popcount8 s.cfg.initMask)

/-- The history explains the registers (20_memory.md R57): ODR holds the last value written, or the reset value; a recorded read of ODR
returned the last value written before it, and a recorded read of CLKEN or MODE what Setup left; only ODR was written. -/
def State.HistoryCoherent (s : State) : Prop :=
  (∀ p : Port, s.regs[p].odr = lastWrite p (launchRegs s.cfg p).odr s.hist) ∧
  (∀ (before after : List Event) (p : Port) (r : Reg) (v : Word), s.hist = before ++ .rd p r v :: after →
    match r with
    | .clken => v = (launchRegs s.cfg p).clken
    | .mode => v = (launchRegs s.cfg p).mode
    | .idr => Word.fits s.cfg.w v = true
    | .odr => v = lastWrite p (launchRegs s.cfg p).odr before) ∧
  (∀ (p : Port) (r : Reg) (v : Word), .wr p r v ∈ s.hist → r = .odr ∧ Word.fits s.cfg.w v = true)

/-- The commands run one after another by their meanings, as the issuer of 45_control_loop.md R195 may drive the components one by one. -/
def execAll : List Instr → State → Host.Outcome State Fault Refusal
  | [], s => .next s
  | i :: rest, s =>
    match exec i s with
    | .next t => execAll rest t
    | .fault r => .fault r
    | .refused r => .refused r

/-- FRAME of a command that writes no register: all but the history and the environment is unchanged, and every byte of the address
space reads as before. -/
def KeepsRegisters (s t : State) : Prop :=
  t.cfg = s.cfg ∧ t.regs = s.regs ∧ t.prev = s.prev ∧ t.mask = s.mask ∧ t.dir = s.dir ∧ t.busy = s.busy ∧
  t.refused = s.refused ∧ t.issuer = s.issuer ∧ ∀ a : Nat, t.readByte a = s.readByte a

/-- FRAME of a command that writes ODR of port `p` and no other register: every other register, and every byte outside the bytes of
that one, is unchanged, and so is all other state but the history. -/
def WritesOnlyOdr (s t : State) (p : Port) : Prop :=
  t.cfg = s.cfg ∧ t.prev = s.prev ∧ t.mask = s.mask ∧ t.dir = s.dir ∧ t.busy = s.busy ∧
  t.refused = s.refused ∧ t.issuer = s.issuer ∧ t.env = s.env ∧
  t.regs[p].clken = s.regs[p].clken ∧ t.regs[p].mode = s.regs[p].mode ∧
  (∀ q : Port, q ≠ p → t.regs[q] = s.regs[q]) ∧
  ∀ a : Nat, ¬ s.cfg.inRegister p .odr a → t.readByte a = s.readByte a

end Sys2Proof.Machine

namespace Sys2Proof

/-! ### The operands a command uses, for the order of the refusals (60_exceptions.md R216) -/

/-- The port a command uses (30_encoding.md R73). -/
def Instr.usedPort : Instr → Option Port
  | .rpRead p _ => some p
  | .rpWrite p _ _ => some p
  | .rpSet p _ _ => some p
  | .rpClear p _ _ => some p
  | .rpToggle p _ _ => some p
  | .pinWrite p _ _ => some p
  | .pinToggle p _ => some p
  | .pinRead p _ => some p
  | .edPoll _ => none
  | .peStep => none
  | .peFlip => none
  | .tick => none

/-- The bit a pin command uses (30_encoding.md R73). -/
def Instr.usedBit : Instr → Option BitIndex
  | .rpRead _ _ => none
  | .rpWrite _ _ _ => none
  | .rpSet _ _ _ => none
  | .rpClear _ _ _ => none
  | .rpToggle _ _ _ => none
  | .pinWrite _ b _ => some b
  | .pinToggle _ b => some b
  | .pinRead _ b => some b
  | .edPoll _ => none
  | .peStep => none
  | .peFlip => none
  | .tick => none

/-- The register a Register Port command writes (41_register_port.md R105). -/
def Instr.writtenReg : Instr → Option Reg
  | .rpRead _ _ => none
  | .rpWrite _ r _ => some r
  | .rpSet _ r _ => some r
  | .rpClear _ r _ => some r
  | .rpToggle _ r _ => some r
  | .pinWrite _ _ _ => none
  | .pinToggle _ _ => none
  | .pinRead _ _ => none
  | .edPoll _ => none
  | .peStep => none
  | .peFlip => none
  | .tick => none

/-- The pin a command uses and the direction it needs (42_digital_pin.md R120). -/
def Instr.neededDir : Instr → Option (Port × BitIndex × PinDir)
  | .rpRead _ _ => none
  | .rpWrite _ _ _ => none
  | .rpSet _ _ _ => none
  | .rpClear _ _ _ => none
  | .rpToggle _ _ _ => none
  | .pinWrite p b _ => some (p, b, .output)
  | .pinToggle p b => some (p, b, .output)
  | .pinRead p b => some (p, b, .input)
  | .edPoll _ => none
  | .peStep => none
  | .peFlip => none
  | .tick => none

/-- Lines 5 to 9 of 60_exceptions.md R216, top to bottom: the first reason that applies to a decoded command. -/
def Instr.firstRefusal (c : Config) (i : Instr) : Option Reason :=
  if i.usedPort.any (fun p => decide (c.nports ≤ p.val)) then some .badPort
  else if i.usedBit.any (fun b => decide (c.w ≤ b.val)) then some .badBit
  else if i.writtenReg.any (fun r => r != .odr) then some .readOnlyRegister
  else if i.neededDir.any (fun n => c.pinDir n.1 n.2.1.val != n.2.2) then some .wrongDirection
  else if i == .peFlip && c.variant == .bounce then some .flipInBounce
  else none

end Sys2Proof
end

