-- ==== Sys2Proof/Certificates/Slice0/Obligations.lean ====
section
/-! DEFINITION. The statements about the model, each with the rule of the spec it formalises. Every statement is for every configuration
that its hypotheses admit; none rests on the values of the reference configuration, on a free draw, or on the reset contents of the issuer
and the environment (log 1 to 6). A statement that rests on another choice of the model names its log entry. -/

open Sys2Proof Sys2Proof.Machine

/-! ### Encoding -/

/-- No bit of an encoding is dropped: the decoder reads back every well-formed instruction, at every operand value (30_encoding.md R70, R71,
R73). -/
def Obligations.DecodeOfEncodeIsTheInstruction : Prop :=
  ∀ (w : Nat) (i : Instr), i.wf w = true → decode w (encode i) = .command i

/-- Each accepted command word is the encoding of the instruction it decodes to: no two words of W operand bits spell one instruction
(30_encoding.md R75, R77). -/
def Obligations.AcceptedWordIsTheEncoding : Prop :=
  ∀ (w : Nat) (cmd : Command) (i : Instr), decode w cmd = .command i →
    encode i = { cmd with o := truncW w cmd.o } ∧ i.wf w = true

/-- The decoder accepts a command as a mnemonic exactly where the row of spec/opcode_table.json with that mnemonic matches it, with the
operand-word condition of the row's note. -/
def Obligations.DecoderAgreesWithTheOpcodeTable : Prop :=
  ∀ (w : Nat) (cmd : Command) (row : OpRow), row ∈ opRows →
    (row.accepts w cmd = true ↔ ∃ i, decode w cmd = .command i ∧ i.mnemonic = row.mnemonic)

/-- 30_encoding.md R74: the reserved opcodes are 0x0, 0xD, 0xE and 0xF; they spell no command, and a command with one of them is refused
with reason ReservedOpcode. -/
def Obligations.ReservedOpcodesAreRefused : Prop :=
  (∀ (w : Nat) (cmd : Command), decode w cmd = .refuse .reservedOpcode ↔ Header.HasReservedOpcode cmd.h) ∧
  ∀ (s s' : State) (cmd : Command), s.Ready → s.takeCommand = some (cmd, s') →
    Header.HasReservedOpcode cmd.h → step s = .next (s'.refuse .reservedOpcode)

/-- 30_encoding.md R75: a command of a defined opcode with a nonzero must-be-zero header field, or a nonzero operand word where it must be
zero, is refused with reason ReservedField. The fields are those of R73, opcode by opcode: bits 2..1 always, and the operand word
for every command but RP_WRITE, RP_SET, RP_CLEAR and RP_TOGGLE. -/
def Obligations.NonzeroReservedFieldsAreRefused : Prop :=
  ∀ (s s' : State) (cmd : Command), s.Ready → s.takeCommand = some (cmd, s') →
    (1 ≤ (fieldOp cmd.h).toNat ∧ (fieldOp cmd.h).toNat ≤ 12) →
    cmd.HasNonzeroReservedField s.cfg.w →
    step s = .next (s'.refuse .reservedField)

/-- 30_encoding.md R77: at most one row of the opcode table matches any header. -/
def Obligations.AtMostOneRowMatches : Prop :=
  ∀ (h : Header) (r₁ r₂ : OpRow), r₁ ∈ opRows → r₂ ∈ opRows →
    h &&& r₁.mask = r₁.pat → h &&& r₂.mask = r₂.pat → r₁ = r₂

/-- 30_encoding.md R80: the examples, header and operand word written out, at the default width. -/
def Obligations.WordsOfTheExamplesDecode : Prop :=
  decode 32 ⟨0x1600, 0x00000000⟩ = .command (.rpRead 1 .idr) ∧
  decode 32 ⟨0x2300, 0x000000AA⟩ = .command (.rpWrite 0 .odr 0xAA) ∧
  decode 32 ⟨0x6019, 0x00000000⟩ = .command (.pinWrite 0 3 true) ∧
  decode 32 ⟨0x7038, 0x00000000⟩ = .command (.pinToggle 0 7) ∧
  decode 32 ⟨0x8410, 0x00000000⟩ = .command (.pinRead 1 2) ∧
  decode 32 ⟨0x9001, 0x00000000⟩ = .command (.edPoll true) ∧
  decode 32 ⟨0xA000, 0x00000000⟩ = .command .peStep ∧
  decode 32 ⟨0xB000, 0x00000000⟩ = .command .peFlip ∧
  decode 32 ⟨0xC000, 0x00000000⟩ = .command .tick

/-- 30_encoding.md R70: the serial form `H:O` has 16 + W bits and gives the header and operand word back. -/
def Obligations.SerialFormGivesTheCommandBack : Prop :=
  ∀ (w : Nat) (cmd : Command), w = 8 ∨ w = 16 ∨ w = 32 → Word.fits w cmd.o = true →
    cmd.serial w < 2 ^ (16 + w) ∧ Command.ofSerial w (cmd.serial w) = cmd

/-! ### Reset and configuration -/

/-- 70_reset_and_hazards.md R240: the state after reset, field by field, for every configuration whose launch values are W-bit values. -/
def Obligations.ResetSetsEveryField : Prop :=
  ∀ c : Config,
    (∀ p : Port, c.hasPort p = true → Word.fits c.w c.clken0[p] = true ∧ Word.fits c.w c.mode0[p] = true ∧
      Word.fits c.w c.odr0[p] = true) →
    (∀ p : Port, c.hasPort p = true →
      (State.resetOf c).regs[p].clken = c.clken0[p] ∧ (State.resetOf c).regs[p].mode = c.mode0[p] ∧
      (State.resetOf c).regs[p].odr = c.odr0[p]) ∧
    (State.resetOf c).prev = false ∧ (State.resetOf c).mask = c.initMask ∧ (State.resetOf c).dir = c.initDir ∧
    (State.resetOf c).busy = false ∧ (State.resetOf c).hist = [] ∧
    ((State.resetOf c).refused = none ↔ c.check = none)

/-- 70_reset_and_hazards.md R241: the eight checks, and the reason of a configuration that fails one. Check 7 holds by the types of the
configuration. That InvalidConfig is the reason where check 8 fails as well is the model's choice (log 13). -/
def Obligations.ConfigurationChecks : Prop :=
  ∀ c : Config,
    (c.valid = true ↔
      ((c.w = 8 ∨ c.w = 16 ∨ c.w = 32) ∧ c.a = 32 ∧ 1 ≤ c.nports ∧ c.nports ≤ 4) ∧
      (c.outPort.val < c.nports ∧ c.inPort.val < c.nports) ∧
      (c.patternLsb + 8 ≤ c.w ∧ c.buttonBit < c.w) ∧
      (∀ i : Nat, i < 8 → c.pinDir c.outPort (c.patternLsb + i) = .output) ∧
      c.pinDir c.inPort c.buttonBit = .input ∧
      (∀ (p : Port) (r : Reg), p.val < c.nports → (c.addr p r).toNat % (c.w / 8) = 0) ∧
      (∀ (p q : Port) (r r' : Reg), p.val < c.nports → q.val < c.nports → c.addr p r = c.addr q r' → p = q ∧ r = r')) ∧
    (c.check = none ↔ c.valid = true ∧ c.secondMaster = false) ∧
    (c.valid = false → c.check = some .invalidConfig) ∧
    (c.valid = true → c.secondMaster = true → c.check = some .secondAgent)

/-- 60_exceptions.md R212, 70_reset_and_hazards.md R241: a block reset under a configuration that fails a check takes no step. -/
def Obligations.RefusedConfigurationNeverSteps : Prop :=
  ∀ c : Config, c.check ≠ none → step (State.resetOf c) = .fault .stuckAfterRefusal

/-- The invariants hold after reset, under every configuration and for the machine's own reset state. -/
def Obligations.ResetSatisfiesTheInvariants : Prop :=
  (∀ c : Config, (State.resetOf c).Inv ∧ (State.resetOf c).HistoryCoherent) ∧
  State.Inv Sys2Proof.core.reset ∧ State.HistoryCoherent Sys2Proof.core.reset

/-! ### Invariants of every step -/

/-- Every step, from every state, keeps the invariant: a valid configuration, the register memory in canonical form (W-bit words, 10_state.md
R21), CLKEN and MODE as Setup left them (R21), the delay bit in agreement with the history (45_control_loop.md R193, R194), and the
number of lit LEDs in the Rotate variant (44_pattern_engine.md R165). -/
def Obligations.EveryStepKeepsTheInvariant : Prop :=
  ∀ s t : State, s.Inv → step s = .next t → t.Inv

/-- 20_memory.md R57: a read returns the value of the last write to that register before it, and the registers hold the last value written:
every step keeps the history an explanation of the registers. -/
def Obligations.EveryStepKeepsTheHistoryCoherent : Prop :=
  ∀ s t : State, s.Inv → s.HistoryCoherent → step s = .next t → t.HistoryCoherent

/-- 10_state.md R30, R27: a step only appends to the history, in order, and never changes the configuration, CLKEN or MODE. -/
def Obligations.HistoryOnlyGrowsAndSetupIsNeverWritten : Prop :=
  ∀ s t : State, step s = .next t →
    (∃ es, t.hist = s.hist ++ es) ∧ t.cfg = s.cfg ∧
    ∀ p : Port, t.regs[p].clken = s.regs[p].clken ∧ t.regs[p].mode = s.regs[p].mode

/-- 60_exceptions.md R210: no command, well formed or not, and no environment step raises an exception or stops the block; only a block
already refused has no step. -/
def Obligations.OnlyARefusedBlockHasNoStep : Prop :=
  ∀ s : State, (s.refused = none → ∃ t, step s = .next t) ∧
    (s.refused ≠ none → step s = .fault .stuckAfterRefusal)

/-! ### The step -/

/-- 30_encoding.md R77, 60_exceptions.md R216 line 10: a ready block takes the command presented and runs the instruction it decodes to,
at the state that differs only in the issuer. -/
def Obligations.StepRunsTheDecodedCommand : Prop :=
  ∀ (s : State) (cmd : Command) (iss : Issuer) (i : Instr), s.Ready → s.issuer.take = some (cmd, iss) →
    decode s.cfg.w cmd = .command i → step s = exec i { s with issuer := iss }

/-- A command placed at the port by `withFetchWord` is the one the next step runs (log 7, 21). -/
def Obligations.PlacedCommandRunsNext : Prop :=
  ∀ (s : State) (nbits w : Nat) (i : Instr), s.Ready → decode s.cfg.w (tableCommand nbits w) = .command i →
    step (s.withFetchWord nbits w) = exec i s

/-- 60_exceptions.md R213, 45_control_loop.md R194: while `busy` is 1 every command holds at the port, and the step is DelayEnd, which clears
`busy`, records the event and changes nothing else; after it the command still pending is decoded and run as usual.
That the delay ends at the very next step is the model's choice (log 10). -/
def Obligations.CommandsHoldUntilDelayEnd : Prop :=
  ∀ s : State, s.refused = none → s.busy = true →
    ∃ t, step s = .next t ∧ t.busy = false ∧ t.hist = s.hist ++ [.delayEnd] ∧ t.refused = none ∧
      t.cfg = s.cfg ∧ t.regs = s.regs ∧ t.prev = s.prev ∧ t.mask = s.mask ∧ t.dir = s.dir ∧
      t.issuer = s.issuer ∧ t.env = s.env ∧
      ∀ (cmd : Command) (t' : State), t.takeCommand = some (cmd, t') →
        (∀ i, decode s.cfg.w cmd = .command i → step t = exec i t') ∧
        ∀ r, decode s.cfg.w cmd = .refuse r → step t = .next (t'.refuse r)

/-- 60_exceptions.md R212: a step that refuses sets the mark and changes nothing of the block: no register, sample, pattern, delay bit or event,
and it makes no draw; and the refused block has no further step. -/
def Obligations.RefusalSetsTheMarkAndNothingElse : Prop :=
  ∀ (s t : State) (r : Reason), s.refused = none → step s = .next t → t.refused = some r →
    t.cfg = s.cfg ∧ t.regs = s.regs ∧ t.prev = s.prev ∧ t.mask = s.mask ∧ t.dir = s.dir ∧ t.busy = s.busy ∧
    t.hist = s.hist ∧ t.env = s.env ∧ step t = .fault .stuckAfterRefusal

/-- 60_exceptions.md R216: one outcome applies to a command, in the order refused, busy, ReservedOpcode, ReservedField, BadPort, BadBit,
ReadOnlyRegister, WrongDirection, FlipInBounce, run. Lines 3 and 4 are told by the command's own fields, so a command with a reserved
opcode and a nonzero reserved field is refused for its opcode. That a busy block's next step is DelayEnd is the model's choice
(log 10). -/
def Obligations.OutcomeFollowsThePriorityOrder : Prop :=
  ∀ (s s' : State) (cmd : Command), s.takeCommand = some (cmd, s') →
    (s.refused ≠ none → step s = .fault .stuckAfterRefusal) ∧
    (s.refused = none → s.busy = true → step s = .next s.delayEnd) ∧
    (s.Ready →
      (Header.HasReservedOpcode cmd.h → step s = .next (s'.refuse .reservedOpcode)) ∧
      (¬ Header.HasReservedOpcode cmd.h → cmd.HasNonzeroReservedField s.cfg.w →
        step s = .next (s'.refuse .reservedField)) ∧
      (¬ Header.HasReservedOpcode cmd.h → ¬ cmd.HasNonzeroReservedField s.cfg.w →
        ∃ i, decode s.cfg.w cmd = .command i ∧
          (∀ r, i.firstRefusal s.cfg = some r → step s = .next (s'.refuse r)) ∧
          (i.firstRefusal s.cfg = none → step s = exec i s' ∧ ∃ t, exec i s' = .next t ∧ t.refused = none)))

/-- 10_state.md R24, R25, R26, R28, R29: which commands write which hidden state. Only ED_POLL and TICK change the previous sample, only PE_STEP
and TICK the mask, only PE_STEP, PE_FLIP and TICK the direction, only TICK enters the delay, and none leaves it or clears the
refusal mark. -/
def Obligations.OnlyTheNamedCommandsWriteEachState : Prop :=
  ∀ (i : Instr) (s t : State), exec i s = .next t →
    (t.prev ≠ s.prev → (∃ x, i = .edPoll x) ∨ i = .tick) ∧
    (t.mask ≠ s.mask → i = .peStep ∨ i = .tick) ∧
    (t.dir ≠ s.dir → i = .peStep ∨ i = .peFlip ∨ i = .tick) ∧
    (t.busy ≠ s.busy → i = .tick ∧ t.busy = true) ∧
    (s.refused ≠ none → t.refused ≠ none)

/-! ### Register Port -/

/-- 41_register_port.md R100, RP_READ: its words, its effect on every port and register, its refusal, and its frame. -/
def Obligations.RpReadRespondsWithTheRegister : Prop :=
  (∀ (w : Nat) (h : Header) (o : Word), fieldOp h = 0x1 →
    decode w ⟨h, o⟩ = if h.extractLsb' 0 8 = 0 ∧ truncW w o = 0 then .command (.rpRead (fieldPort h) (fieldReg h))
      else .refuse .reservedField) ∧
  (∀ (s : State) (p : Port) (r : Reg), p.val < s.cfg.nports →
    ∃ (t : State) (v : Word), exec (.rpRead p r) s = .next t ∧
      t.hist = s.hist ++ [.rd p r v, .resp (.word s.cfg.w v)] ∧
      (match r with
        | .clken => v = s.regs[p].clken ∧ t.env = s.env
        | .mode => v = s.regs[p].mode ∧ t.env = s.env
        | .idr => v = truncW s.cfg.w s.env.next ∧ t.env = s.env.advance
        | .odr => v = s.regs[p].odr ∧ t.env = s.env) ∧
      KeepsRegisters s t) ∧
  ∀ (s : State) (p : Port) (r : Reg), s.cfg.nports ≤ p.val → exec (.rpRead p r) s = .next (s.refuse .badPort)

/-- What the four register writes refuse (41_register_port.md R105): a port that is absent, then a register that is not ODR. -/
def RefusesAbsentPortThenReadOnly (i : Port → Reg → Instr) : Prop :=
  ∀ (s : State) (p : Port) (r : Reg),
    (s.cfg.nports ≤ p.val → exec (i p r) s = .next (s.refuse .badPort)) ∧
    (p.val < s.cfg.nports → r ≠ .odr → exec (i p r) s = .next (s.refuse .readOnlyRegister))

/-- The words of a register write with opcode `op` (41_register_port.md R101 to R104): `H[7:0]` must be zero and the operand word is
used. -/
def DecodesAsRegisterWrite (op : BitVec 4) (i : Port → Reg → Word → Instr) : Prop :=
  ∀ (w : Nat) (h : Header) (o : Word), fieldOp h = op →
    decode w ⟨h, o⟩ = if h.extractLsb' 0 8 = 0 then .command (i (fieldPort h) (fieldReg h) (truncW w o))
      else .refuse .reservedField

/-- The effect of a read-modify-write of ODR that makes `f old` of what it reads: one read and one write, both recorded whether the
value changes or not (20_memory.md R55), and the frame. -/
def ReadsThenWritesOdr (i : Instr) (p : Port) (f : Word → Word) (s : State) : Prop :=
  ∃ t, exec i s = .next t ∧ t.regs[p].odr = f s.regs[p].odr ∧
    t.hist = s.hist ++ [.rd p .odr s.regs[p].odr, .wr p .odr (f s.regs[p].odr)] ∧ WritesOnlyOdr s t p

/-- 41_register_port.md R101, RP_WRITE: its words, its effect (no read, one recorded write of the whole word), refusals and frame. -/
def Obligations.RpWriteReplacesTheWord : Prop :=
  DecodesAsRegisterWrite 0x2 .rpWrite ∧
  (∀ (s : State) (p : Port) (word : Word), p.val < s.cfg.nports → Word.fits s.cfg.w word = true →
    ∃ t, exec (.rpWrite p .odr word) s = .next t ∧ t.regs[p].odr = word ∧
      t.hist = s.hist ++ [.wr p .odr word] ∧ WritesOnlyOdr s t p) ∧
  ∀ word : Word, RefusesAbsentPortThenReadOnly fun p r => .rpWrite p r word

/-- 41_register_port.md R102, RP_SET: `old | O`. -/
def Obligations.RpSetSetsTheMaskedBits : Prop :=
  DecodesAsRegisterWrite 0x3 .rpSet ∧
  (∀ (s : State) (p : Port) (m : Word), p.val < s.cfg.nports → Memory.wf s.cfg s.regs = true →
    Word.fits s.cfg.w m = true → ReadsThenWritesOdr (.rpSet p .odr m) p (fun old => old ||| m) s) ∧
  ∀ m : Word, RefusesAbsentPortThenReadOnly fun p r => .rpSet p r m

/-- 41_register_port.md R103, RP_CLEAR: `old & ~O`. -/
def Obligations.RpClearClearsTheMaskedBits : Prop :=
  DecodesAsRegisterWrite 0x4 .rpClear ∧
  (∀ (s : State) (p : Port) (m : Word), p.val < s.cfg.nports → Memory.wf s.cfg s.regs = true →
    Word.fits s.cfg.w m = true → ReadsThenWritesOdr (.rpClear p .odr m) p (fun old => old &&& ~~~m) s) ∧
  ∀ m : Word, RefusesAbsentPortThenReadOnly fun p r => .rpClear p r m

/-- 41_register_port.md R104, RP_TOGGLE: `old ^ O`, and two toggles with one mask restore the value. -/
def Obligations.RpToggleFlipsTheMaskedBits : Prop :=
  DecodesAsRegisterWrite 0x5 .rpToggle ∧
  (∀ (s : State) (p : Port) (m : Word), p.val < s.cfg.nports → Memory.wf s.cfg s.regs = true →
    Word.fits s.cfg.w m = true →
    ReadsThenWritesOdr (.rpToggle p .odr m) p (fun old => old ^^^ m) s ∧
    ∃ t, execAll [.rpToggle p .odr m, .rpToggle p .odr m] s = .next t ∧ t.regs = s.regs) ∧
  ∀ m : Word, RefusesAbsentPortThenReadOnly fun p r => .rpToggle p r m

/-- 20_memory.md R54, R57: a read of ODR right after a write of it responds with the value written. -/
def Obligations.ReadAfterWriteRespondsWithTheValueWritten : Prop :=
  ∀ (s : State) (p : Port) (word : Word), p.val < s.cfg.nports → Word.fits s.cfg.w word = true →
    ∃ t, execAll [.rpWrite p .odr word, .rpRead p .odr] s = .next t ∧
      t.hist = s.hist ++ [.wr p .odr word, .rd p .odr word, .resp (.word s.cfg.w word)]

/-- 20_memory.md R50 to R53: a write of ODR stores the W/8 bytes of the word at `BASE[p] + OFF_ODR`, byte `k` at that address plus `k`, and
every other byte of the address space reads as before. The byte order is log 16's. -/
def Obligations.WriteStoresTheBytesAtTheRegisterAddress : Prop :=
  ∀ (s : State) (p : Port) (word : Word), s.cfg.check = none → p.val < s.cfg.nports → Word.fits s.cfg.w word = true →
    ∃ t, exec (.rpWrite p .odr word) s = .next t ∧
      (∀ k : Nat, k < s.cfg.w / 8 → t.readByte ((s.cfg.base[p] + s.cfg.offOdr).toNat + k) = some (word.extractLsb' (8 * k) 8)) ∧
      ∀ a : Nat, a < (s.cfg.base[p] + s.cfg.offOdr).toNat ∨ (s.cfg.base[p] + s.cfg.offOdr).toNat + s.cfg.w / 8 ≤ a →
        t.readByte a = s.readByte a

/-! ### Digital Pin -/

/-- What a pin command that needs direction `d` refuses (42_digital_pin.md R120): the port, then the bit, then the direction. -/
def RefusesPortBitDirection (i : Port → BitIndex → Instr) (d : PinDir) : Prop :=
  ∀ (s : State) (p : Port) (b : BitIndex),
    (s.cfg.nports ≤ p.val → exec (i p b) s = .next (s.refuse .badPort)) ∧
    (p.val < s.cfg.nports → s.cfg.w ≤ b.val → exec (i p b) s = .next (s.refuse .badBit)) ∧
    (p.val < s.cfg.nports → b.val < s.cfg.w → s.cfg.pinDir p b.val ≠ d →
      exec (i p b) s = .next (s.refuse .wrongDirection))

/-- 42_digital_pin.md R121, PIN_WRITE: its words, its effect (bit `b` becomes `v` and every other bit is identical, by one recorded read
and one recorded write), refusals and frame. -/
def Obligations.PinWriteSetsExactlyItsBit : Prop :=
  (∀ (w : Nat) (h : Header) (o : Word), fieldOp h = 0x6 →
    decode w ⟨h, o⟩ = if h.extractLsb' 8 2 = 0 ∧ h.extractLsb' 1 2 = 0 ∧ truncW w o = 0
      then .command (.pinWrite (fieldPort h) (fieldBit h) (fieldVal h)) else .refuse .reservedField) ∧
  (∀ (s : State) (p : Port) (b : BitIndex) (v : Bool), p.val < s.cfg.nports → b.val < s.cfg.w →
    s.cfg.pinDir p b.val = .output → Memory.wf s.cfg s.regs = true →
    ReadsThenWritesOdr (.pinWrite p b v) p
      (fun old => (old &&& ~~~((1 : Word) <<< b.val)) ||| ((if v then 1 else 0 : Word) <<< b.val)) s ∧
    ∃ t, exec (.pinWrite p b v) s = .next t ∧
      ∀ j : Nat, t.regs[p].odr.getLsbD j = if j = b.val then v else s.regs[p].odr.getLsbD j) ∧
  ∀ v : Bool, RefusesPortBitDirection (fun p b => .pinWrite p b v) .output

/-- 42_digital_pin.md R122, PIN_TOGGLE: exactly bit `b` flips, and two toggles of one pin restore ODR. -/
def Obligations.PinToggleFlipsExactlyItsBit : Prop :=
  (∀ (w : Nat) (h : Header) (o : Word), fieldOp h = 0x7 →
    decode w ⟨h, o⟩ = if h.extractLsb' 8 2 = 0 ∧ h.extractLsb' 0 3 = 0 ∧ truncW w o = 0
      then .command (.pinToggle (fieldPort h) (fieldBit h)) else .refuse .reservedField) ∧
  (∀ (s : State) (p : Port) (b : BitIndex), p.val < s.cfg.nports → b.val < s.cfg.w →
    s.cfg.pinDir p b.val = .output → Memory.wf s.cfg s.regs = true →
    ReadsThenWritesOdr (.pinToggle p b) p (fun old => old ^^^ ((1 : Word) <<< b.val)) s ∧
    (∃ t, exec (.pinToggle p b) s = .next t ∧
      ∀ j : Nat, t.regs[p].odr.getLsbD j =
        if j = b.val then !(s.regs[p].odr.getLsbD j) else s.regs[p].odr.getLsbD j) ∧
    ∃ t, execAll [.pinToggle p b, .pinToggle p b] s = .next t ∧ t.regs = s.regs) ∧
  RefusesPortBitDirection .pinToggle .output

/-- 42_digital_pin.md R123, PIN_READ: the response is bit `b` of one draw of IDR, raw and not inverted. -/
def Obligations.PinReadRespondsWithItsBitOfTheDraw : Prop :=
  (∀ (w : Nat) (h : Header) (o : Word), fieldOp h = 0x8 →
    decode w ⟨h, o⟩ = if h.extractLsb' 8 2 = 0 ∧ h.extractLsb' 0 3 = 0 ∧ truncW w o = 0
      then .command (.pinRead (fieldPort h) (fieldBit h)) else .refuse .reservedField) ∧
  (∀ (s : State) (p : Port) (b : BitIndex), p.val < s.cfg.nports → b.val < s.cfg.w → s.cfg.pinDir p b.val = .input →
    ∃ t, exec (.pinRead p b) s = .next t ∧
      t.hist = s.hist ++ [.rd p .idr (truncW s.cfg.w s.env.next), .resp (.bit (s.env.next.getLsbD b.val))] ∧
      t.env = s.env.advance ∧ KeepsRegisters s t) ∧
  RefusesPortBitDirection .pinRead .input

/-- 42_digital_pin.md R124, the preserve-others law: a PIN_WRITE or PIN_TOGGLE of an output pin leaves every other bit of the port's ODR and
every other register of every port unchanged. -/
def Obligations.PinCommandsPreserveOtherBits : Prop :=
  ∀ (s t : State) (p : Port) (b : BitIndex) (i : Instr), p.val < s.cfg.nports → s.cfg.pinDir p b.val = .output →
    Memory.wf s.cfg s.regs = true → (i = .pinToggle p b ∨ ∃ v, i = .pinWrite p b v) → exec i s = .next t →
    (∀ j : Nat, j ≠ b.val → t.regs[p].odr.getLsbD j = s.regs[p].odr.getLsbD j) ∧
    t.regs[p].clken = s.regs[p].clken ∧ t.regs[p].mode = s.regs[p].mode ∧
    ∀ q : Port, q ≠ p → t.regs[q] = s.regs[q]

/-- 42_digital_pin.md R125: eight PIN_WRITEs of the pattern pins with the bits of `m`, in any order, leave ODR as the one pattern write of TICK
does; they record eight reads and eight writes. -/
def Obligations.EightPinWritesEqualOnePatternWrite : Prop :=
  ∀ (s : State) (m : Byte) (order : List (Fin 8)), s.cfg.check = none → Memory.wf s.cfg s.regs = true →
    order.Perm [0, 1, 2, 3, 4, 5, 6, 7] →
    ∃ t, execAll (order.map fun i =>
        .pinWrite s.cfg.outPort (Fin.ofNat 32 (s.cfg.patternLsb + i.val)) (m.getLsbD i.val)) s = .next t ∧
      t.regs[s.cfg.outPort].odr = patternMerge s.cfg s.regs[s.cfg.outPort].odr m ∧
      t.hist.length = s.hist.length + 16 ∧
      (odrWrites s.cfg.outPort t.hist).length = (odrWrites s.cfg.outPort s.hist).length + 8

/-! ### Edge Detector -/

/-- 43_edge_detector.md R141, R140: ED_POLL responds 1 exactly when the previous sample is 0 and this one is 1, stores the sample in every
case, and touches nothing else. -/
def Obligations.EdPollReportsRisingEdges : Prop :=
  (∀ (w : Nat) (h : Header) (o : Word), fieldOp h = 0x9 →
    decode w ⟨h, o⟩ = if h.extractLsb' 1 11 = 0 ∧ truncW w o = 0 then .command (.edPoll (h.getLsbD 0))
      else .refuse .reservedField) ∧
  ∀ (s : State) (x : Bool), ∃ (t : State) (e : Bool), exec (.edPoll x) s = .next t ∧
    (e = true ↔ s.prev = false ∧ x = true) ∧ t.hist = s.hist ++ [.resp (.bit e)] ∧ t.prev = x ∧
    t.cfg = s.cfg ∧ t.regs = s.regs ∧ t.mask = s.mask ∧ t.dir = s.dir ∧ t.busy = s.busy ∧ t.refused = s.refused ∧
    t.issuer = s.issuer ∧ t.env = s.env ∧ ∀ a : Nat, t.readByte a = s.readByte a

/-- 43_edge_detector.md R143 to R145: over any sequence of polls the detector responds with one RisingEdge for each 0-to-1 change of the
sampled sequence, the value before the first poll included, and with nothing else: no filter, no timer, no falling edge. -/
def Obligations.OneRisingEdgePerSampledRise : Prop :=
  ∀ (samples : List Bool) (s : State), ∃ t, execAll (samples.map .edPoll) s = .next t ∧
    t.hist = s.hist ++ ((s.prev :: samples).zip samples).map (fun ab => .resp (.bit (!ab.1 && ab.2))) ∧
    t.prev = samples.getLastD s.prev

/-! ### Pattern Engine -/

/-- The mask and direction one step of the engine gives, bit by bit (44_pattern_engine.md R161, R162). -/
def PatternStepped (c : Config) (m m' : Byte) (d d' : Dir) : Prop :=
  (c.variant = .rotate → d' = d ∧ ∀ i : Nat, i < 8 →
    m'.getLsbD i = (match d with
      | .forward => m.getLsbD ((i + 7) % 8)
      | .reverse => m.getLsbD ((i + 1) % 8))) ∧
  (c.variant = .bounce →
    ((d = .forward ∧ m ≠ c.top) ∨ (d = .reverse ∧ m = c.bottom) → d' = .forward ∧ m'.getLsbD 0 = false ∧
      ∀ i : Nat, i < 7 → m'.getLsbD (i + 1) = m.getLsbD i) ∧
    ((d = .reverse ∧ m ≠ c.bottom) ∨ (d = .forward ∧ m = c.top) → d' = .reverse ∧ m'.getLsbD 7 = false ∧
      ∀ i : Nat, i < 7 → m'.getLsbD i = m.getLsbD (i + 1)))

/-- 44_pattern_engine.md R163, with R161 and R162: PE_STEP commits the next mask and direction, responds with the mask, and touches nothing
else. -/
def Obligations.PeStepMovesThePattern : Prop :=
  (∀ (w : Nat) (h : Header) (o : Word), fieldOp h = 0xA →
    decode w ⟨h, o⟩ = if h.extractLsb' 0 12 = 0 ∧ truncW w o = 0 then .command .peStep else .refuse .reservedField) ∧
  ∀ s : State, ∃ t, exec .peStep s = .next t ∧ PatternStepped s.cfg s.mask t.mask s.dir t.dir ∧
    t.hist = s.hist ++ [.resp (.mask t.mask)] ∧ t.cfg = s.cfg ∧ t.regs = s.regs ∧ t.prev = s.prev ∧
    t.busy = s.busy ∧ t.refused = s.refused ∧ t.issuer = s.issuer ∧ t.env = s.env ∧
    ∀ a : Nat, t.readByte a = s.readByte a

/-- 44_pattern_engine.md R164: PE_FLIP flips the direction in the Rotate variant, leaves the mask and all else unchanged and records nothing;
two flips restore the direction; in the Bounce variant it is refused with FlipInBounce. -/
def Obligations.PeFlipFlipsTheDirectionInRotate : Prop :=
  (∀ (w : Nat) (h : Header) (o : Word), fieldOp h = 0xB →
    decode w ⟨h, o⟩ = if h.extractLsb' 0 12 = 0 ∧ truncW w o = 0 then .command .peFlip else .refuse .reservedField) ∧
  (∀ s : State, s.cfg.variant = .rotate →
    (∃ t, exec .peFlip s = .next t ∧ t.dir ≠ s.dir ∧ t.mask = s.mask ∧ t.hist = s.hist ∧ t.cfg = s.cfg ∧
      t.regs = s.regs ∧ t.prev = s.prev ∧ t.busy = s.busy ∧ t.refused = s.refused ∧ t.issuer = s.issuer ∧
      t.env = s.env ∧ ∀ a : Nat, t.readByte a = s.readByte a) ∧
    execAll [.peFlip, .peFlip] s = .next s) ∧
  ∀ s : State, s.cfg.variant = .bounce → exec .peFlip s = .next (s.refuse .flipInBounce)

/-- 44_pattern_engine.md R165: the two rotations preserve the population count of every mask. -/
def Obligations.RotationsPreservePopulationCount : Prop :=
  ∀ m : Byte, popcount8 (rotl8 m) = popcount8 (rotr8 m) ∧ popcount8 (rotr8 m) = popcount8 m

/-- 44_pattern_engine.md R166: the rotations are inverses, and eight PE_STEPs in one direction return every mask to itself. -/
def Obligations.EightRotateStepsReturnTheMask : Prop :=
  (∀ m : Byte, rotl8 (rotr8 m) = m ∧ rotr8 (rotl8 m) = m) ∧
  ∀ s : State, s.cfg.variant = .rotate →
    ∃ t, execAll (List.replicate 8 .peStep) s = .next t ∧ t.mask = s.mask ∧ t.dir = s.dir

/-- 44_pattern_engine.md R167: when a Bounce step preserves the population count, clause by clause, and that with the reference pair it does so
on the six masks of the reference trajectory and stays among them. -/
def Obligations.BouncePreservesPopulationCountExactlyWhen : Prop :=
  (∀ s : State, s.cfg.variant = .bounce → ∃ t, exec .peStep s = .next t ∧
    (s.dir = .forward → s.mask ≠ s.cfg.top →
      (popcount8 t.mask = popcount8 s.mask ↔ s.mask.getLsbD 7 = false)) ∧
    (s.dir = .forward → s.mask = s.cfg.top →
      (popcount8 t.mask = popcount8 s.mask ↔ s.cfg.top.getLsbD 0 = false)) ∧
    (s.dir = .reverse → s.mask ≠ s.cfg.bottom →
      (popcount8 t.mask = popcount8 s.mask ↔ s.mask.getLsbD 0 = false)) ∧
    (s.dir = .reverse → s.mask = s.cfg.bottom →
      (popcount8 t.mask = popcount8 s.mask ↔ s.cfg.bottom.getLsbD 7 = false))) ∧
  ∀ s : State, s.cfg.variant = .bounce → s.cfg.top = 0xE0 → s.cfg.bottom = 0x07 →
    s.mask ∈ ([0x07, 0x0E, 0x1C, 0x38, 0x70, 0xE0] : List Byte) →
    ∃ t, exec .peStep s = .next t ∧ popcount8 t.mask = 3 ∧
      t.mask ∈ ([0x07, 0x0E, 0x1C, 0x38, 0x70, 0xE0] : List Byte)

/-- 44_pattern_engine.md R168: the reference Bounce outputs, their directions, and the period of ten steps. -/
def Obligations.ReferenceBounceHasPeriodTen : Prop :=
  ∀ s : State, s.cfg.variant = .bounce → s.cfg.top = 0xE0 → s.cfg.bottom = 0x07 → s.mask = 0x07 → s.dir = .forward →
    (∀ n : Nat, ∃ t u, execAll (List.replicate (n + 1) .peStep) s = .next t ∧
      execAll (List.replicate (n + 11) .peStep) s = .next u ∧ t.mask = u.mask ∧ t.dir = u.dir) ∧
    ∃ t, execAll (List.replicate 10 .peStep) s = .next t ∧
      t.hist = s.hist ++ ([0x0E, 0x1C, 0x38, 0x70, 0xE0, 0x70, 0x38, 0x1C, 0x0E, 0x07] : List Byte).map
        (fun m => .resp (.mask m)) ∧
      ∀ n : Nat, 1 ≤ n → n ≤ 11 → ∃ u, execAll (List.replicate n .peStep) s = .next u ∧
        (u.dir = .forward ↔ n ≤ 5 ∨ n = 11)

/-- 44_pattern_engine.md R160, R163: the direction changes only on a rising edge (PE_FLIP, or a TICK whose sample is one) in the Rotate variant,
and only at a boundary mask in the Bounce variant. -/
def Obligations.DirectionChangesOnlyForItsVariantsReason : Prop :=
  ∀ (i : Instr) (s t : State), exec i s = .next t → t.dir ≠ s.dir →
    (s.cfg.variant = .rotate →
      i = .peFlip ∨ (i = .tick ∧ s.prev = false ∧
        sample s.cfg (truncW s.cfg.w s.env.next) = true)) ∧
    (s.cfg.variant = .bounce → (i = .peStep ∨ i = .tick) ∧
      ((s.dir = .forward ∧ s.mask = s.cfg.top) ∨ (s.dir = .reverse ∧ s.mask = s.cfg.bottom)))

/-- 44_pattern_engine.md R170: the Pattern Engine is deterministic: two blocks that agree in mask, direction, variant and boundary masks go
through the same masks and directions under one sequence of engine commands, whatever else differs. -/
def Obligations.PatternEngineDependsOnItsOwnStateOnly : Prop :=
  ∀ (cmds : List Instr) (s s' t t' : State), (∀ i ∈ cmds, i = .peStep ∨ i = .peFlip) →
    s.mask = s'.mask → s.dir = s'.dir → s.cfg.variant = s'.cfg.variant → s.cfg.top = s'.cfg.top →
    s.cfg.bottom = s'.cfg.bottom → execAll cmds s = .next t → execAll cmds s' = .next t' →
    t.mask = t'.mask ∧ t.dir = t'.dir

/-! ### Control Loop -/

/-- 45_control_loop.md R190: TICK. The sample is one bit of one draw, inverted if the configuration says so (R191); the previous sample is
updated; in the Rotate variant an edge flips the direction before the step (R196); the pattern steps; ODR of the output port
gets the mask in its span and keeps every other bit (R192); exactly three accesses and then the delay's start are recorded; the
block is busy; nothing else changes. -/
def Obligations.TickRunsOnePassOfTheLoop : Prop :=
  (∀ (w : Nat) (h : Header) (o : Word), fieldOp h = 0xC →
    decode w ⟨h, o⟩ = if h.extractLsb' 0 12 = 0 ∧ truncW w o = 0 then .command .tick else .refuse .reservedField) ∧
  ∀ s : State, s.cfg.check = none → Memory.wf s.cfg s.regs = true →
    ∃ (t : State) (smp : Bool) (d : Dir), exec .tick s = .next t ∧
      smp = ((s.env.next.getLsbD s.cfg.buttonBit) != s.cfg.inputInvert) ∧
      t.prev = smp ∧
      (s.prev = false ∧ smp = true ∧ s.cfg.variant = .rotate → d ≠ s.dir) ∧
      (¬ (s.prev = false ∧ smp = true ∧ s.cfg.variant = .rotate) → d = s.dir) ∧
      PatternStepped s.cfg s.mask t.mask d t.dir ∧
      (∀ j : Nat, j < s.cfg.w → t.regs[s.cfg.outPort].odr.getLsbD j =
        if s.cfg.patternLsb ≤ j ∧ j < s.cfg.patternLsb + 8 then t.mask.getLsbD (j - s.cfg.patternLsb)
        else s.regs[s.cfg.outPort].odr.getLsbD j) ∧
      t.hist = s.hist ++ [.rd s.cfg.inPort .idr (truncW s.cfg.w s.env.next),
        .rd s.cfg.outPort .odr s.regs[s.cfg.outPort].odr, .wr s.cfg.outPort .odr t.regs[s.cfg.outPort].odr,
        .delayStart s.cfg.tickDuration] ∧
      t.busy = true ∧ t.env = s.env.advance ∧
      t.cfg = s.cfg ∧ t.refused = s.refused ∧ t.issuer = s.issuer ∧
      (∀ q : Port, t.regs[q].clken = s.regs[q].clken ∧ t.regs[q].mode = s.regs[q].mode) ∧
      (∀ q : Port, q ≠ s.cfg.outPort → t.regs[q] = s.regs[q]) ∧
      ∀ a : Nat, ¬ s.cfg.inRegister s.cfg.outPort .odr a → t.readByte a = s.readByte a

/-- 45_control_loop.md R192: the merged word has mask bit `i` at bit `PATTERN_LSB + i` and every other bit of the old word. -/
def Obligations.PatternMergeFillsTheSpanOnly : Prop :=
  ∀ (c : Config) (o : Word) (m : Byte), c.check = none → Word.fits c.w o = true →
    Word.fits c.w (patternMerge c o m) = true ∧
    (∀ i : Nat, i < 8 → (patternMerge c o m).getLsbD (c.patternLsb + i) = m.getLsbD i) ∧
    ∀ j : Nat, j < c.patternLsb ∨ c.patternLsb + 8 ≤ j → (patternMerge c o m).getLsbD j = o.getLsbD j

/-- 45_control_loop.md R196: in the Bounce variant the button changes nothing but the previous sample and the recorded draw: two blocks that
differ only in what the input lines read and in the previous sample have after a TICK the same pattern, direction, registers, delay
bit, mark, configuration and issuer, and histories that differ in the value of that TICK's IDR read alone. -/
def Obligations.BounceIgnoresTheButton : Prop :=
  ∀ (s : State) (e : Env) (pv : Bool), s.cfg.variant = .bounce →
    ∃ t t' es, exec .tick s = .next t ∧ exec .tick { s with env := e, prev := pv } = .next t' ∧
      t.mask = t'.mask ∧ t.dir = t'.dir ∧ t.regs = t'.regs ∧ t.busy = t'.busy ∧ t.refused = t'.refused ∧
      t.cfg = t'.cfg ∧ t.issuer = t'.issuer ∧
      t.hist = s.hist ++ .rd s.cfg.inPort .idr (truncW s.cfg.w s.env.next) :: es ∧
      t'.hist = s.hist ++ .rd s.cfg.inPort .idr (truncW s.cfg.w e.next) :: es ∧
      t.prev = sample s.cfg (truncW s.cfg.w s.env.next) ∧ t'.prev = sample s.cfg (truncW s.cfg.w e.next) ∧
      t.env = s.env.advance ∧ t'.env = e.advance

/-- 45_control_loop.md R197: the first TICK after reset shows the step of INIT_MASK, in the initial direction or, in the Rotate variant with
the first sample 1, in the flipped one; bits outside the span are ODR0's. -/
def Obligations.FirstTickShowsTheStepOfTheInitialMask : Prop :=
  ∀ (c : Config) (e : Env), c.check = none →
    ∃ (t : State) (d : Dir), exec .tick { State.resetOf c with env := e } = .next t ∧
      (d ≠ c.initDir ↔ c.variant = .rotate ∧ sample c (truncW c.w e.next) = true) ∧
      PatternStepped c c.initMask t.mask d t.dir ∧
      (∀ i : Nat, i < 8 → t.regs[c.outPort].odr.getLsbD (c.patternLsb + i) = t.mask.getLsbD i) ∧
      ∀ j : Nat, j < c.w → j < c.patternLsb ∨ c.patternLsb + 8 ≤ j →
        t.regs[c.outPort].odr.getLsbD j = (c.odr0[c.outPort]).getLsbD j

/-- 45_control_loop.md R195: under the reference program the execution has no end and TICKs and DelayEnds alternate: after `2n` steps `n` ticks
and `n` delay ends have happened, with five events each and one write of the output port's ODR each, and the loop goes on.
That DelayEnd is the very next step of a busy block, and the issuer that repeats its command, are the model's choices (log 10, log 6). -/
def Obligations.ReferenceLoopAlternatesTickAndDelayEnd : Prop :=
  ∀ (n : Nat) (s : State), s.Ready → s.issuer = Issuer.loop →
    (∃ t, Sys2Proof.core.run (2 * n) s = .next t ∧ State.Ready t ∧ State.issuer t = Issuer.loop ∧
      (State.hist t).length = s.hist.length + 5 * n ∧
      (odrWrites s.cfg.outPort (State.hist t)).length = (odrWrites s.cfg.outPort s.hist).length + n) ∧
    ∃ t, Sys2Proof.core.run (2 * n + 1) s = .next t ∧ State.busy t = true ∧ State.refused t = none

/-- The reference Bounce loop goes on for ever, whatever the button does: from the second mask of its trajectory, every ten ticks and ten
delay ends bring back mask and direction, and the LEDs show the mask (44_pattern_engine.md R168, 45_control_loop.md R192, R195).
That DelayEnd is the very next step of a busy block, and the issuer that repeats its command, are the model's choices (log 10, log 6). -/
def Obligations.ReferenceBounceLoopIsPeriodic : Prop :=
  ∀ (n : Nat) (s : State), s.Ready → s.issuer = Issuer.loop → s.cfg.check = none → Memory.wf s.cfg s.regs = true →
    s.cfg.variant = .bounce → s.cfg.top = 0xE0 → s.cfg.bottom = 0x07 → s.mask = 0x0E → s.dir = .forward →
    ∃ t, Sys2Proof.core.run (20 * (n + 1)) s = .next t ∧ State.Ready t ∧ State.mask t = 0x0E ∧
      State.dir t = .forward ∧
      ∀ i : Nat, i < 8 → ((State.regs t)[s.cfg.outPort]).odr.getLsbD (s.cfg.patternLsb + i) = (0x0E : Byte).getLsbD i
end

