-- ==== Sys2Proof/Laws/State.lean ====
section
/-! SUPPORT. One lemma per field per update of the state, each true by rfl, so that no later proof unfolds a record update. -/

namespace Sys2Proof.Machine

variable (s : State)

/-! ### record -/

@[simp] theorem State.record_cfg (e : Event) : (s.record e).cfg = s.cfg := rfl
@[simp] theorem State.record_regs (e : Event) : (s.record e).regs = s.regs := rfl
@[simp] theorem State.record_prev (e : Event) : (s.record e).prev = s.prev := rfl
@[simp] theorem State.record_mask (e : Event) : (s.record e).mask = s.mask := rfl
@[simp] theorem State.record_dir (e : Event) : (s.record e).dir = s.dir := rfl
@[simp] theorem State.record_busy (e : Event) : (s.record e).busy = s.busy := rfl
@[simp] theorem State.record_refused (e : Event) : (s.record e).refused = s.refused := rfl
@[simp] theorem State.record_hist (e : Event) : (s.record e).hist = s.hist ++ [e] := rfl
@[simp] theorem State.record_issuer (e : Event) : (s.record e).issuer = s.issuer := rfl
@[simp] theorem State.record_env (e : Event) : (s.record e).env = s.env := rfl

/-! ### respond -/

@[simp] theorem State.respond_cfg (v : Response) : (s.respond v).cfg = s.cfg := rfl
@[simp] theorem State.respond_regs (v : Response) : (s.respond v).regs = s.regs := rfl
@[simp] theorem State.respond_prev (v : Response) : (s.respond v).prev = s.prev := rfl
@[simp] theorem State.respond_mask (v : Response) : (s.respond v).mask = s.mask := rfl
@[simp] theorem State.respond_dir (v : Response) : (s.respond v).dir = s.dir := rfl
@[simp] theorem State.respond_busy (v : Response) : (s.respond v).busy = s.busy := rfl
@[simp] theorem State.respond_refused (v : Response) : (s.respond v).refused = s.refused := rfl
@[simp] theorem State.respond_hist (v : Response) : (s.respond v).hist = s.hist ++ [.resp v] := rfl
@[simp] theorem State.respond_issuer (v : Response) : (s.respond v).issuer = s.issuer := rfl
@[simp] theorem State.respond_env (v : Response) : (s.respond v).env = s.env := rfl

/-! ### refuse -/

@[simp] theorem State.refuse_cfg (r : Reason) : (s.refuse r).cfg = s.cfg := rfl
@[simp] theorem State.refuse_regs (r : Reason) : (s.refuse r).regs = s.regs := rfl
@[simp] theorem State.refuse_prev (r : Reason) : (s.refuse r).prev = s.prev := rfl
@[simp] theorem State.refuse_mask (r : Reason) : (s.refuse r).mask = s.mask := rfl
@[simp] theorem State.refuse_dir (r : Reason) : (s.refuse r).dir = s.dir := rfl
@[simp] theorem State.refuse_busy (r : Reason) : (s.refuse r).busy = s.busy := rfl
@[simp] theorem State.refuse_refused (r : Reason) : (s.refuse r).refused = some r := rfl
@[simp] theorem State.refuse_hist (r : Reason) : (s.refuse r).hist = s.hist := rfl
@[simp] theorem State.refuse_issuer (r : Reason) : (s.refuse r).issuer = s.issuer := rfl
@[simp] theorem State.refuse_env (r : Reason) : (s.refuse r).env = s.env := rfl

/-! ### regWrite -/

@[simp] theorem State.regWrite_cfg (p : Port) (v : Word) : (s.regWrite p v).cfg = s.cfg := rfl
@[simp] theorem State.regWrite_regs (p : Port) (v : Word) : (s.regWrite p v).regs = s.regs.set p { s.regs[p] with odr := truncW s.cfg.w v } := rfl
@[simp] theorem State.regWrite_prev (p : Port) (v : Word) : (s.regWrite p v).prev = s.prev := rfl
@[simp] theorem State.regWrite_mask (p : Port) (v : Word) : (s.regWrite p v).mask = s.mask := rfl
@[simp] theorem State.regWrite_dir (p : Port) (v : Word) : (s.regWrite p v).dir = s.dir := rfl
@[simp] theorem State.regWrite_busy (p : Port) (v : Word) : (s.regWrite p v).busy = s.busy := rfl
@[simp] theorem State.regWrite_refused (p : Port) (v : Word) : (s.regWrite p v).refused = s.refused := rfl
@[simp] theorem State.regWrite_hist (p : Port) (v : Word) : (s.regWrite p v).hist = s.hist ++ [.wr p .odr (truncW s.cfg.w v)] := rfl
@[simp] theorem State.regWrite_issuer (p : Port) (v : Word) : (s.regWrite p v).issuer = s.issuer := rfl
@[simp] theorem State.regWrite_env (p : Port) (v : Word) : (s.regWrite p v).env = s.env := rfl

/-! ### delayStart -/

@[simp] theorem State.delayStart_cfg : (s.delayStart).cfg = s.cfg := rfl
@[simp] theorem State.delayStart_regs : (s.delayStart).regs = s.regs := rfl
@[simp] theorem State.delayStart_prev : (s.delayStart).prev = s.prev := rfl
@[simp] theorem State.delayStart_mask : (s.delayStart).mask = s.mask := rfl
@[simp] theorem State.delayStart_dir : (s.delayStart).dir = s.dir := rfl
@[simp] theorem State.delayStart_busy : (s.delayStart).busy = true := rfl
@[simp] theorem State.delayStart_refused : (s.delayStart).refused = s.refused := rfl
@[simp] theorem State.delayStart_hist : (s.delayStart).hist = s.hist ++ [.delayStart s.cfg.tickDuration] := rfl
@[simp] theorem State.delayStart_issuer : (s.delayStart).issuer = s.issuer := rfl
@[simp] theorem State.delayStart_env : (s.delayStart).env = s.env := rfl

/-! ### delayEnd -/

@[simp] theorem State.delayEnd_cfg : (s.delayEnd).cfg = s.cfg := rfl
@[simp] theorem State.delayEnd_regs : (s.delayEnd).regs = s.regs := rfl
@[simp] theorem State.delayEnd_prev : (s.delayEnd).prev = s.prev := rfl
@[simp] theorem State.delayEnd_mask : (s.delayEnd).mask = s.mask := rfl
@[simp] theorem State.delayEnd_dir : (s.delayEnd).dir = s.dir := rfl
@[simp] theorem State.delayEnd_busy : (s.delayEnd).busy = false := rfl
@[simp] theorem State.delayEnd_refused : (s.delayEnd).refused = s.refused := rfl
@[simp] theorem State.delayEnd_hist : (s.delayEnd).hist = s.hist ++ [.delayEnd] := rfl
@[simp] theorem State.delayEnd_issuer : (s.delayEnd).issuer = s.issuer := rfl
@[simp] theorem State.delayEnd_env : (s.delayEnd).env = s.env := rfl

/-! ### setPrev -/

@[simp] theorem State.setPrev_cfg (smp : Bool) : (s.setPrev smp).cfg = s.cfg := rfl
@[simp] theorem State.setPrev_regs (smp : Bool) : (s.setPrev smp).regs = s.regs := rfl
@[simp] theorem State.setPrev_prev (smp : Bool) : (s.setPrev smp).prev = smp := rfl
@[simp] theorem State.setPrev_mask (smp : Bool) : (s.setPrev smp).mask = s.mask := rfl
@[simp] theorem State.setPrev_dir (smp : Bool) : (s.setPrev smp).dir = s.dir := rfl
@[simp] theorem State.setPrev_busy (smp : Bool) : (s.setPrev smp).busy = s.busy := rfl
@[simp] theorem State.setPrev_refused (smp : Bool) : (s.setPrev smp).refused = s.refused := rfl
@[simp] theorem State.setPrev_hist (smp : Bool) : (s.setPrev smp).hist = s.hist := rfl
@[simp] theorem State.setPrev_issuer (smp : Bool) : (s.setPrev smp).issuer = s.issuer := rfl
@[simp] theorem State.setPrev_env (smp : Bool) : (s.setPrev smp).env = s.env := rfl

/-! ### stepPattern -/

@[simp] theorem State.stepPattern_cfg : (s.stepPattern).cfg = s.cfg := rfl
@[simp] theorem State.stepPattern_regs : (s.stepPattern).regs = s.regs := rfl
@[simp] theorem State.stepPattern_prev : (s.stepPattern).prev = s.prev := rfl
@[simp] theorem State.stepPattern_mask : (s.stepPattern).mask = (patternNext s.cfg s.mask s.dir).1 := rfl
@[simp] theorem State.stepPattern_dir : (s.stepPattern).dir = (patternNext s.cfg s.mask s.dir).2 := rfl
@[simp] theorem State.stepPattern_busy : (s.stepPattern).busy = s.busy := rfl
@[simp] theorem State.stepPattern_refused : (s.stepPattern).refused = s.refused := rfl
@[simp] theorem State.stepPattern_hist : (s.stepPattern).hist = s.hist := rfl
@[simp] theorem State.stepPattern_issuer : (s.stepPattern).issuer = s.issuer := rfl
@[simp] theorem State.stepPattern_env : (s.stepPattern).env = s.env := rfl

/-! ### flip -/

@[simp] theorem State.flip_cfg : (s.flip).cfg = s.cfg := rfl
@[simp] theorem State.flip_regs : (s.flip).regs = s.regs := rfl
@[simp] theorem State.flip_prev : (s.flip).prev = s.prev := rfl
@[simp] theorem State.flip_mask : (s.flip).mask = s.mask := rfl
@[simp] theorem State.flip_dir : (s.flip).dir = flipDir s.dir := rfl
@[simp] theorem State.flip_busy : (s.flip).busy = s.busy := rfl
@[simp] theorem State.flip_refused : (s.flip).refused = s.refused := rfl
@[simp] theorem State.flip_hist : (s.flip).hist = s.hist := rfl
@[simp] theorem State.flip_issuer : (s.flip).issuer = s.issuer := rfl
@[simp] theorem State.flip_env : (s.flip).env = s.env := rfl

/-! ### withIssuer -/

@[simp] theorem State.withIssuer_cfg (i : Issuer) : (s.withIssuer i).cfg = s.cfg := rfl
@[simp] theorem State.withIssuer_regs (i : Issuer) : (s.withIssuer i).regs = s.regs := rfl
@[simp] theorem State.withIssuer_prev (i : Issuer) : (s.withIssuer i).prev = s.prev := rfl
@[simp] theorem State.withIssuer_mask (i : Issuer) : (s.withIssuer i).mask = s.mask := rfl
@[simp] theorem State.withIssuer_dir (i : Issuer) : (s.withIssuer i).dir = s.dir := rfl
@[simp] theorem State.withIssuer_busy (i : Issuer) : (s.withIssuer i).busy = s.busy := rfl
@[simp] theorem State.withIssuer_refused (i : Issuer) : (s.withIssuer i).refused = s.refused := rfl
@[simp] theorem State.withIssuer_hist (i : Issuer) : (s.withIssuer i).hist = s.hist := rfl
@[simp] theorem State.withIssuer_issuer (i : Issuer) : (s.withIssuer i).issuer = i := rfl
@[simp] theorem State.withIssuer_env (i : Issuer) : (s.withIssuer i).env = s.env := rfl

/-! ### afterRead -/

@[simp] theorem State.afterRead_cfg (p : Port) (r : Reg) : (s.afterRead p r).cfg = s.cfg := by
  cases r <;> rfl
@[simp] theorem State.afterRead_regs (p : Port) (r : Reg) : (s.afterRead p r).regs = s.regs := by
  cases r <;> rfl
@[simp] theorem State.afterRead_prev (p : Port) (r : Reg) : (s.afterRead p r).prev = s.prev := by
  cases r <;> rfl
@[simp] theorem State.afterRead_mask (p : Port) (r : Reg) : (s.afterRead p r).mask = s.mask := by
  cases r <;> rfl
@[simp] theorem State.afterRead_dir (p : Port) (r : Reg) : (s.afterRead p r).dir = s.dir := by
  cases r <;> rfl
@[simp] theorem State.afterRead_busy (p : Port) (r : Reg) : (s.afterRead p r).busy = s.busy := by
  cases r <;> rfl
@[simp] theorem State.afterRead_refused (p : Port) (r : Reg) : (s.afterRead p r).refused = s.refused := by
  cases r <;> rfl
@[simp] theorem State.afterRead_issuer (p : Port) (r : Reg) : (s.afterRead p r).issuer = s.issuer := by
  cases r <;> rfl
@[simp] theorem State.afterRead_hist (p : Port) (r : Reg) :
    (s.afterRead p r).hist = s.hist ++ [.rd p r (s.readValue p r)] := by
  cases r <;> rfl
theorem State.afterRead_env (p : Port) (r : Reg) :
    (s.afterRead p r).env = if r = .idr then s.env.advance else s.env := by
  cases r <;> rfl
@[simp] theorem State.afterRead_env_idr (p : Port) : (s.afterRead p .idr).env = s.env.advance := rfl
@[simp] theorem State.afterRead_env_odr (p : Port) : (s.afterRead p .odr).env = s.env := rfl
@[simp] theorem State.regRead_fst (p : Port) (r : Reg) : (s.regRead p r).1 = s.readValue p r := rfl
@[simp] theorem State.regRead_snd (p : Port) (r : Reg) : (s.regRead p r).2 = s.afterRead p r := rfl
@[simp] theorem State.readValue_clken (p : Port) : s.readValue p .clken = s.regs[p].clken := rfl
@[simp] theorem State.readValue_mode (p : Port) : s.readValue p .mode = s.regs[p].mode := rfl
@[simp] theorem State.readValue_odr (p : Port) : s.readValue p .odr = s.regs[p].odr := rfl
@[simp] theorem State.readValue_idr (p : Port) : s.readValue p .idr = truncW s.cfg.w s.env.next := rfl

/-! ### readModifyWrite -/

@[simp] theorem State.readModifyWrite_cfg (p : Port) (f : Word → Word) : (s.readModifyWrite p f).cfg = s.cfg := rfl
@[simp] theorem State.readModifyWrite_prev (p : Port) (f : Word → Word) : (s.readModifyWrite p f).prev = s.prev := rfl
@[simp] theorem State.readModifyWrite_mask (p : Port) (f : Word → Word) : (s.readModifyWrite p f).mask = s.mask := rfl
@[simp] theorem State.readModifyWrite_dir (p : Port) (f : Word → Word) : (s.readModifyWrite p f).dir = s.dir := rfl
@[simp] theorem State.readModifyWrite_busy (p : Port) (f : Word → Word) : (s.readModifyWrite p f).busy = s.busy := rfl
@[simp] theorem State.readModifyWrite_refused (p : Port) (f : Word → Word) : (s.readModifyWrite p f).refused = s.refused := rfl
@[simp] theorem State.readModifyWrite_issuer (p : Port) (f : Word → Word) : (s.readModifyWrite p f).issuer = s.issuer := rfl
@[simp] theorem State.readModifyWrite_env (p : Port) (f : Word → Word) : (s.readModifyWrite p f).env = s.env := rfl
@[simp] theorem State.readModifyWrite_regs (p : Port) (f : Word → Word) :
    (s.readModifyWrite p f).regs = s.regs.set p { s.regs[p] with odr := truncW s.cfg.w (f s.regs[p].odr) } := rfl
@[simp] theorem State.readModifyWrite_hist (p : Port) (f : Word → Word) :
    (s.readModifyWrite p f).hist =
      s.hist ++ [.rd p .odr s.regs[p].odr, .wr p .odr (truncW s.cfg.w (f s.regs[p].odr))] := by
  simp [State.readModifyWrite]

/-! ### pollAndFlip -/

@[simp] theorem State.pollAndFlip_cfg (smp : Bool) : (s.pollAndFlip smp).cfg = s.cfg := by
  unfold State.pollAndFlip; split <;> rfl
@[simp] theorem State.pollAndFlip_regs (smp : Bool) : (s.pollAndFlip smp).regs = s.regs := by
  unfold State.pollAndFlip; split <;> rfl
@[simp] theorem State.pollAndFlip_mask (smp : Bool) : (s.pollAndFlip smp).mask = s.mask := by
  unfold State.pollAndFlip; split <;> rfl
@[simp] theorem State.pollAndFlip_busy (smp : Bool) : (s.pollAndFlip smp).busy = s.busy := by
  unfold State.pollAndFlip; split <;> rfl
@[simp] theorem State.pollAndFlip_refused (smp : Bool) : (s.pollAndFlip smp).refused = s.refused := by
  unfold State.pollAndFlip; split <;> rfl
@[simp] theorem State.pollAndFlip_hist (smp : Bool) : (s.pollAndFlip smp).hist = s.hist := by
  unfold State.pollAndFlip; split <;> rfl
@[simp] theorem State.pollAndFlip_issuer (smp : Bool) : (s.pollAndFlip smp).issuer = s.issuer := by
  unfold State.pollAndFlip; split <;> rfl
@[simp] theorem State.pollAndFlip_env (smp : Bool) : (s.pollAndFlip smp).env = s.env := by
  unfold State.pollAndFlip; split <;> rfl
@[simp] theorem State.pollAndFlip_prev (smp : Bool) : (s.pollAndFlip smp).prev = smp := by
  unfold State.pollAndFlip; split <;> rfl
theorem State.pollAndFlip_dir (smp : Bool) : (s.pollAndFlip smp).dir =
    if edge s.prev smp = true ∧ s.cfg.variant = .rotate then flipDir s.dir else s.dir := by
  unfold State.pollAndFlip; split <;> rfl

/-! ### showPattern -/

@[simp] theorem State.showPattern_cfg : s.showPattern.cfg = s.cfg := rfl
@[simp] theorem State.showPattern_prev : s.showPattern.prev = s.prev := rfl
@[simp] theorem State.showPattern_mask : s.showPattern.mask = s.mask := rfl
@[simp] theorem State.showPattern_dir : s.showPattern.dir = s.dir := rfl
@[simp] theorem State.showPattern_busy : s.showPattern.busy = s.busy := rfl
@[simp] theorem State.showPattern_refused : s.showPattern.refused = s.refused := rfl
@[simp] theorem State.showPattern_issuer : s.showPattern.issuer = s.issuer := rfl
@[simp] theorem State.showPattern_env : s.showPattern.env = s.env := rfl
@[simp] theorem State.showPattern_regs : s.showPattern.regs =
    s.regs.set s.cfg.outPort { s.regs[s.cfg.outPort] with
      odr := truncW s.cfg.w (patternMerge s.cfg s.regs[s.cfg.outPort].odr s.mask) } := rfl
@[simp] theorem State.showPattern_hist : s.showPattern.hist = s.hist ++
    [.rd s.cfg.outPort .odr s.regs[s.cfg.outPort].odr,
     .wr s.cfg.outPort .odr (truncW s.cfg.w (patternMerge s.cfg s.regs[s.cfg.outPort].odr s.mask))] := by
  simp [State.showPattern]

end Sys2Proof.Machine
end

