-- ==== Sys2Proof/Laws/Bits.lean ====
section
/-! SUPPORT. What truncation to W bits does, bit by bit, and which operations keep a word within W bits (00_scope.md R9). -/

namespace Sys2Proof

theorem getLsbD_widthMask (w i : Nat) : (BitVec.ofNat 32 (2 ^ w - 1)).getLsbD i = (decide (i < w) && decide (i < 32)) := by
  rw [BitVec.getLsbD_ofNat, Nat.testBit_two_pow_sub_one, Bool.and_comm]

@[simp] theorem getLsbD_truncW (w i : Nat) (v : Word) : (truncW w v).getLsbD i = (decide (i < w) && v.getLsbD i) := by
  unfold truncW
  rw [BitVec.getLsbD_and, getLsbD_widthMask]
  rcases Nat.lt_or_ge i 32 with h | h
  · simp [h, Bool.and_comm]
  · simp [BitVec.getLsbD_of_ge _ _ h]

/-- A word fits W bits exactly when it has no bit at or above W. -/
theorem fits_iff_bits (w : Nat) (v : Word) : Word.fits w v = true ↔ ∀ i, w ≤ i → v.getLsbD i = false := by
  simp only [Word.fits, decide_eq_true_eq]
  constructor
  · intro h i hi
    exact Nat.testBit_lt_two_pow (Nat.lt_of_lt_of_le h (Nat.pow_le_pow_right (by decide) hi))
  · intro h
    refine Nat.lt_pow_two_of_testBit _ fun i hi => ?_
    exact h i hi

theorem truncW_fits (w : Nat) (v : Word) : Word.fits w (truncW w v) = true := by
  rw [fits_iff_bits]
  intro i hi
  simp [Nat.not_lt.mpr hi]

theorem truncW_of_fits {w : Nat} {v : Word} (h : Word.fits w v = true) : truncW w v = v := by
  rw [fits_iff_bits] at h
  apply BitVec.eq_of_getLsbD_eq
  intro i _
  rcases Nat.lt_or_ge i w with hi | hi
  · simp [hi]
  · simp [h i hi]

/-- Being a W-bit value is being left alone by truncation. -/
theorem fits_iff_truncW (w : Nat) (v : Word) : Word.fits w v = true ↔ truncW w v = v :=
  ⟨truncW_of_fits, fun h => h ▸ truncW_fits w v⟩

@[simp] theorem truncW_truncW (w : Nat) (v : Word) : truncW w (truncW w v) = truncW w v :=
  truncW_of_fits (truncW_fits w v)

@[simp] theorem truncW_zero (w : Nat) : truncW w 0 = 0 := by simp [truncW]

theorem fits_zero (w : Nat) : Word.fits w 0 = true := (fits_iff_truncW w 0).mpr (truncW_zero w)

theorem fits_or {w : Nat} {a b : Word} (ha : Word.fits w a = true) (hb : Word.fits w b = true) :
    Word.fits w (a ||| b) = true := by
  rw [fits_iff_bits] at *
  intro i hi
  simp [ha i hi, hb i hi]

theorem fits_xor {w : Nat} {a b : Word} (ha : Word.fits w a = true) (hb : Word.fits w b = true) :
    Word.fits w (a ^^^ b) = true := by
  rw [fits_iff_bits] at *
  intro i hi
  simp [ha i hi, hb i hi]

theorem fits_and_left {w : Nat} {a : Word} (b : Word) (ha : Word.fits w a = true) : Word.fits w (a &&& b) = true := by
  rw [fits_iff_bits] at *
  intro i hi
  simp [ha i hi]

/-- An 8-bit value shifted into bits below W stays within W bits. -/
theorem fits_byte_shift {w k : Nat} (m : Byte) (h : k + 8 ≤ w) : Word.fits w (m.setWidth 32 <<< k) = true := by
  rw [fits_iff_bits]
  intro i hi
  have : m.getLsbD (i - k) = false := BitVec.getLsbD_of_ge _ _ (by omega)
  simp [this]

/-- One bit below W is a W-bit value. -/
theorem fits_bitMask {w : Nat} {b : BitIndex} (h : b.val < w) : Word.fits w (Machine.bitMask b) = true := by
  rw [fits_iff_bits]
  intro i hi
  have : i - b.val ≠ 0 := by omega
  simp [Machine.bitMask, this]

theorem fits_bitWord_shift {w : Nat} {b : BitIndex} (v : Bool) (h : b.val < w) :
    Word.fits w (bitWord v <<< b.val) = true := by
  cases v
  · simpa [bitWord] using fits_zero w
  · simpa [bitWord, Machine.bitMask] using fits_bitMask h

end Sys2Proof

namespace Sys2Proof.Machine

@[simp] theorem getLsbD_bitMask (b : BitIndex) (j : Nat) : (bitMask b).getLsbD j = decide (j = b.val) := by
  have hb := b.isLt
  simp only [bitMask, BitVec.getLsbD_shiftLeft]
  rcases Nat.lt_trichotomy j b.val with h | h | h
  · simp [h, Nat.ne_of_lt h]
  · simp [h, hb]
  · have h1 : j - b.val ≠ 0 := by omega
    have h2 : j ≠ b.val := by omega
    simp [h1, h2]

/-- Bit by bit, PIN_WRITE's value is the old word with bit `b` replaced (42_digital_pin.md R121). -/
theorem getLsbD_pinValue (b : BitIndex) (v : Bool) (old : Word) (j : Nat) :
    (pinValue b v old).getLsbD j = if j = b.val then v else old.getLsbD j := by
  have hm := getLsbD_bitMask b j
  have hw : (bitWord v <<< b.val).getLsbD j = (v && decide (j = b.val)) := by
    cases v
    · simp [bitWord]
    · simpa [bitWord, bitMask] using hm
  have hb := b.isLt
  rcases Nat.lt_or_ge j 32 with hj | hj
  · by_cases h : j = b.val
    · subst h; cases v <;> simp_all [pinValue, bitWord]
    · simp_all [pinValue]
  · have : j ≠ b.val := by omega
    simp [BitVec.getLsbD_of_ge _ _ hj, this]

theorem pinLevel_eq (b : BitIndex) (x : Word) : pinLevel b x = x.getLsbD b.val := by
  have h : ((x >>> b.val) &&& 1 : Word) = if x.getLsbD b.val then 1 else 0 := by
    apply BitVec.eq_of_getLsbD_eq
    intro i hi
    rcases Nat.eq_zero_or_pos i with h | h
    · subst h; cases hx : x.getLsbD b.val <;> simp_all
    · have h0 : i ≠ 0 := by omega
      cases x.getLsbD b.val <;> simp [h0]
  unfold pinLevel
  rw [h]
  cases x.getLsbD b.val <;> decide

@[simp] theorem getLsbD_spanMask (c : Config) (j : Nat) (hj : j < 32) :
    (spanMask c).getLsbD j = (decide (c.patternLsb ≤ j) && decide (j < c.patternLsb + 8)) := by
  have h255 : (0xFF : Word) = BitVec.ofNat 32 (2 ^ 8 - 1) := by decide
  rw [spanMask, h255, BitVec.getLsbD_shiftLeft, getLsbD_widthMask]
  rw [Bool.eq_iff_iff]
  simp only [Bool.and_eq_true, Bool.not_eq_true', decide_eq_true_eq, decide_eq_false_iff_not]
  omega

/-- Bit by bit, the merged word has the mask in the span and the old word elsewhere (45_control_loop.md R192). -/
theorem getLsbD_patternMerge (c : Config) (o : Word) (m : Byte) (j : Nat) (hj : j < 32) :
    (patternMerge c o m).getLsbD j =
      if c.patternLsb ≤ j ∧ j < c.patternLsb + 8 then m.getLsbD (j - c.patternLsb) else o.getLsbD j := by
  have hs := getLsbD_spanMask c j hj
  by_cases h1 : c.patternLsb ≤ j
  · by_cases h2 : j < c.patternLsb + 8
    · have : j - c.patternLsb < 32 := by omega
      simp [patternMerge, hs, h1, h2, hj, this, -BitVec.getLsbD_eq_getElem]
    · have : m.getLsbD (j - c.patternLsb) = false := BitVec.getLsbD_of_ge _ _ (by omega)
      simp [patternMerge, hs, h1, h2, hj, this, -BitVec.getLsbD_eq_getElem]
  · simp [patternMerge, hs, h1, hj, Nat.lt_of_not_le h1, -BitVec.getLsbD_eq_getElem]

theorem fits_patternMerge {c : Config} {o : Word} (m : Byte) (h : c.patternLsb + 8 ≤ c.w) (ho : Word.fits c.w o = true) :
    Word.fits c.w (patternMerge c o m) = true :=
  fits_or (fits_and_left _ ho) (fits_byte_shift m h)

theorem fits_pinValue {w : Nat} {b : BitIndex} {old : Word} (v : Bool) (hb : b.val < w) (ho : Word.fits w old = true) :
    Word.fits w (pinValue b v old) = true :=
  fits_or (fits_and_left _ ho) (fits_bitWord_shift v hb)

end Sys2Proof.Machine
end

