-- ==== Sys2Proof/Laws/Encoding.lean ====
section
/-! SUPPORT. The decoder by opcode, the fields of an encoded header, and which commands decode (30_encoding.md R71, R73, R80). -/

namespace Sys2Proof

theorem decode_reserved {w : Nat} {cmd : Command} (h : fieldOp cmd.h = 0x0 ∨ fieldOp cmd.h = 0xD ∨
    fieldOp cmd.h = 0xE ∨ fieldOp cmd.h = 0xF) : decode w cmd = .refuse .reservedOpcode := by
  rcases h with h | h | h | h <;> simp [decode, h]

theorem accept_refuse {h : Header} {o : Word} {mbz : Header} {u : Bool} {i : Instr} {r : Reason}
    (hr : accept h o mbz u i = .refuse r) : r = .reservedField := by
  unfold accept at hr
  split at hr
  · cases hr
  · cases hr; rfl

theorem accept_command {h : Header} {o : Word} {mbz : Header} {u : Bool} {i j : Instr}
    (ha : accept h o mbz u i = .command j) : j = i ∧ h &&& mbz = 0 ∧ (u = true ∨ o = 0) := by
  unfold accept at ha
  split at ha
  · cases ha; exact ⟨rfl, ‹_›⟩
  · cases ha

/-- The header as a sum: the fields do not overlap (30_encoding.md R71). -/
theorem header_toNat {op p r b v : Nat} (h1 : op < 16) (h2 : p < 4) (h3 : r < 4) (h4 : b < 32) (h5 : v < 2) :
    (header op p r b v).toNat = op * 4096 + p * 1024 + r * 256 + b * 8 + v := by
  have e1 : op <<< 12 ||| p <<< 10 = op * 4096 + p * 1024 := by
    rw [← Nat.shiftLeft_add_eq_or_of_lt (by rw [Nat.shiftLeft_eq]; omega)]; simp only [Nat.shiftLeft_eq]
  have e2 : op <<< 12 ||| p <<< 10 ||| r <<< 8 = op * 4096 + p * 1024 + r * 256 := by
    have : op * 4096 + p * 1024 = (op * 4 + p) <<< 10 := by rw [Nat.shiftLeft_eq]; omega
    rw [e1, this, ← Nat.shiftLeft_add_eq_or_of_lt (by rw [Nat.shiftLeft_eq]; omega)]; simp only [Nat.shiftLeft_eq]
  have e3 : op <<< 12 ||| p <<< 10 ||| r <<< 8 ||| b <<< 3 = op * 4096 + p * 1024 + r * 256 + b * 8 := by
    have : op * 4096 + p * 1024 + r * 256 = (op * 16 + p * 4 + r) <<< 8 := by rw [Nat.shiftLeft_eq]; omega
    rw [e2, this, ← Nat.shiftLeft_add_eq_or_of_lt (by rw [Nat.shiftLeft_eq]; omega)]; simp only [Nat.shiftLeft_eq]
  have e4 : op <<< 12 ||| p <<< 10 ||| r <<< 8 ||| b <<< 3 ||| v = op * 4096 + p * 1024 + r * 256 + b * 8 + v := by
    have : op * 4096 + p * 1024 + r * 256 + b * 8 = (op * 512 + p * 128 + r * 32 + b) <<< 3 := by
      rw [Nat.shiftLeft_eq]; omega
    rw [e3, this, ← Nat.shiftLeft_add_eq_or_of_lt (by omega)]
  rw [header, e4, BitVec.toNat_ofNat, Nat.mod_eq_of_lt (by omega)]

theorem extract_toNat (h : Header) (lo n : Nat) : (h.extractLsb' lo n).toNat = h.toNat / 2 ^ lo % 2 ^ n := by
  rw [BitVec.extractLsb'_toNat, Nat.shiftRight_eq_div_pow]

/-- The fields of a header (30_encoding.md R71) read back what was put in them (R80). -/
theorem fieldOp_header {op p r b v : Nat} (h1 : op < 16) (h2 : p < 4) (h3 : r < 4) (h4 : b < 32) (h5 : v < 2) :
    (fieldOp (header op p r b v)).toNat = op := by
  rw [fieldOp, extract_toNat, header_toNat h1 h2 h3 h4 h5]; omega

theorem fieldPort_header {op r b v : Nat} (p : Port) (h1 : op < 16) (h3 : r < 4) (h4 : b < 32) (h5 : v < 2) :
    fieldPort (header op p.val r b v) = p := by
  apply Fin.ext
  change ((header op p.val r b v).extractLsb' 10 2).toNat = p.val
  rw [extract_toNat, header_toNat h1 p.isLt h3 h4 h5]; omega

theorem fieldBit_header {op p r v : Nat} (b : BitIndex) (h1 : op < 16) (h2 : p < 4) (h3 : r < 4) (h5 : v < 2) :
    fieldBit (header op p r b.val v) = b := by
  apply Fin.ext
  change ((header op p r b.val v).extractLsb' 3 5).toNat = b.val
  rw [extract_toNat, header_toNat h1 h2 h3 b.isLt h5]; omega

theorem fieldReg_header {op p b v : Nat} (r : Reg) (h1 : op < 16) (h2 : p < 4) (h4 : b < 32) (h5 : v < 2) :
    fieldReg (header op p r.code b v) = r := by
  have hr : r.code < 4 := by cases r <;> decide
  have : (fieldSel (header op p r.code b v)).toNat = r.code := by
    rw [fieldSel, extract_toNat, header_toNat h1 h2 hr h4 h5]; omega
  rw [fieldReg, Reg.ofCode, this]
  cases r <;> rfl

theorem fieldVal_header {op p r b : Nat} (v : Bool) (h1 : op < 16) (h2 : p < 4) (h3 : r < 4) (h4 : b < 32) :
    fieldVal (header op p r b v.toNat) = v := by
  have hv : v.toNat < 2 := by cases v <;> decide
  rw [fieldVal, BitVec.getLsbD, header_toNat h1 h2 h3 h4 hv, Nat.testBit_zero]
  cases v <;> simp <;> omega

/-! ### The decoder, opcode by opcode -/

theorem decode_op_rpRead {w : Nat} {cmd : Command} (h : (fieldOp cmd.h).toNat = 1) :
    decode w cmd = accept cmd.h (truncW w cmd.o) 0x00FF false (.rpRead (fieldPort cmd.h) (fieldReg cmd.h)) := by
  simp only [decode, h]

theorem decode_op_rpWrite {w : Nat} {cmd : Command} (h : (fieldOp cmd.h).toNat = 2) :
    decode w cmd = accept cmd.h (truncW w cmd.o) 0x00FF true (.rpWrite (fieldPort cmd.h) (fieldReg cmd.h) (truncW w cmd.o)) := by
  simp only [decode, h]

theorem decode_op_rpSet {w : Nat} {cmd : Command} (h : (fieldOp cmd.h).toNat = 3) :
    decode w cmd = accept cmd.h (truncW w cmd.o) 0x00FF true (.rpSet (fieldPort cmd.h) (fieldReg cmd.h) (truncW w cmd.o)) := by
  simp only [decode, h]

theorem decode_op_rpClear {w : Nat} {cmd : Command} (h : (fieldOp cmd.h).toNat = 4) :
    decode w cmd = accept cmd.h (truncW w cmd.o) 0x00FF true (.rpClear (fieldPort cmd.h) (fieldReg cmd.h) (truncW w cmd.o)) := by
  simp only [decode, h]

theorem decode_op_rpToggle {w : Nat} {cmd : Command} (h : (fieldOp cmd.h).toNat = 5) :
    decode w cmd = accept cmd.h (truncW w cmd.o) 0x00FF true (.rpToggle (fieldPort cmd.h) (fieldReg cmd.h) (truncW w cmd.o)) := by
  simp only [decode, h]

theorem decode_op_pinWrite {w : Nat} {cmd : Command} (h : (fieldOp cmd.h).toNat = 6) :
    decode w cmd = accept cmd.h (truncW w cmd.o) 0x0306 false (.pinWrite (fieldPort cmd.h) (fieldBit cmd.h) (fieldVal cmd.h)) := by
  simp only [decode, h]

theorem decode_op_pinToggle {w : Nat} {cmd : Command} (h : (fieldOp cmd.h).toNat = 7) :
    decode w cmd = accept cmd.h (truncW w cmd.o) 0x0307 false (.pinToggle (fieldPort cmd.h) (fieldBit cmd.h)) := by
  simp only [decode, h]

theorem decode_op_pinRead {w : Nat} {cmd : Command} (h : (fieldOp cmd.h).toNat = 8) :
    decode w cmd = accept cmd.h (truncW w cmd.o) 0x0307 false (.pinRead (fieldPort cmd.h) (fieldBit cmd.h)) := by
  simp only [decode, h]

theorem decode_op_edPoll {w : Nat} {cmd : Command} (h : (fieldOp cmd.h).toNat = 9) :
    decode w cmd = accept cmd.h (truncW w cmd.o) 0x0FFE false (.edPoll (fieldVal cmd.h)) := by
  simp only [decode, h]

theorem decode_op_peStep {w : Nat} {cmd : Command} (h : (fieldOp cmd.h).toNat = 10) :
    decode w cmd = accept cmd.h (truncW w cmd.o) 0x0FFF false .peStep := by
  simp only [decode, h]

theorem decode_op_peFlip {w : Nat} {cmd : Command} (h : (fieldOp cmd.h).toNat = 11) :
    decode w cmd = accept cmd.h (truncW w cmd.o) 0x0FFF false .peFlip := by
  simp only [decode, h]

theorem decode_op_tick {w : Nat} {cmd : Command} (h : (fieldOp cmd.h).toNat = 12) :
    decode w cmd = accept cmd.h (truncW w cmd.o) 0x0FFF false .tick := by
  simp only [decode, h]

theorem fieldOp_cases (h : Header) : (fieldOp h).toNat = 0 ∨ (fieldOp h).toNat = 1 ∨ (fieldOp h).toNat = 2 ∨
    (fieldOp h).toNat = 3 ∨ (fieldOp h).toNat = 4 ∨ (fieldOp h).toNat = 5 ∨ (fieldOp h).toNat = 6 ∨
    (fieldOp h).toNat = 7 ∨ (fieldOp h).toNat = 8 ∨ (fieldOp h).toNat = 9 ∨ (fieldOp h).toNat = 10 ∨
    (fieldOp h).toNat = 11 ∨ (fieldOp h).toNat = 12 ∨ (fieldOp h).toNat = 13 ∨ (fieldOp h).toNat = 14 ∨
    (fieldOp h).toNat = 15 := by
  have := (fieldOp h).isLt
  omega

/-! ### The must-be-zero fields of R73, as fields -/

theorem header_and_eq_zero (h m : Header) :
    h &&& m = 0 ↔ ∀ i, i < 16 → m.getLsbD i = true → h.getLsbD i = false := by
  constructor
  · intro e i _ hm
    have := congrArg (fun x => x.getLsbD i) e
    simpa [hm] using this
  · intro hh
    apply BitVec.eq_of_getLsbD_eq
    intro i hi
    by_cases hm : m.getLsbD i = true
    · simp [hh i hi hm, -BitVec.getLsbD_eq_getElem]
    · simp [hm, -BitVec.getLsbD_eq_getElem]

theorem extract_eq_zero (h : Header) (lo n : Nat) :
    h.extractLsb' lo n = 0 ↔ ∀ i, i < n → h.getLsbD (lo + i) = false := by
  constructor
  · intro e i hi
    have := congrArg (fun x => x.getLsbD i) e
    simpa [hi, -BitVec.getLsbD_eq_getElem] using this
  · intro hh
    apply BitVec.eq_of_getLsbD_eq
    intro i hi
    simp [hi, hh i hi, -BitVec.getLsbD_eq_getElem]

theorem forall_lt_succ_nat {P : Nat → Prop} (n : Nat) : (∀ i, i < n + 1 → P i) ↔ (∀ i, i < n → P i) ∧ P n := by
  constructor
  · intro h; exact ⟨fun i hi => h i (by omega), h n (by omega)⟩
  · rintro ⟨h, hn⟩ i hi
    rcases Nat.lt_succ_iff_lt_or_eq.mp hi with h' | rfl
    · exact h i h'
    · exact hn

theorem mbz_regport (h : Header) : h &&& 0x00FF = 0 ↔ h.extractLsb' 0 8 = 0 := by
  simp only [header_and_eq_zero, extract_eq_zero, forall_lt_succ_nat, Nat.not_lt_zero, false_implies, implies_true, true_and,
    Nat.reduceAdd]
  simp [and_assoc]

theorem mbz_pinWrite (h : Header) : h &&& 0x0306 = 0 ↔ h.extractLsb' 8 2 = 0 ∧ h.extractLsb' 1 2 = 0 := by
  simp only [header_and_eq_zero, extract_eq_zero, forall_lt_succ_nat, Nat.not_lt_zero, false_implies, implies_true, true_and,
    Nat.reduceAdd]
  simp [and_assoc]
  tauto

theorem mbz_pin (h : Header) : h &&& 0x0307 = 0 ↔ h.extractLsb' 8 2 = 0 ∧ h.extractLsb' 0 3 = 0 := by
  simp only [header_and_eq_zero, extract_eq_zero, forall_lt_succ_nat, Nat.not_lt_zero, false_implies, implies_true, true_and,
    Nat.reduceAdd]
  simp [and_assoc]
  tauto

theorem mbz_edPoll (h : Header) : h &&& 0x0FFE = 0 ↔ h.extractLsb' 1 11 = 0 := by
  simp only [header_and_eq_zero, extract_eq_zero, forall_lt_succ_nat, Nat.not_lt_zero, false_implies, implies_true, true_and,
    Nat.reduceAdd]
  simp [and_assoc]

theorem mbz_plain (h : Header) : h &&& 0x0FFF = 0 ↔ h.extractLsb' 0 12 = 0 := by
  simp only [header_and_eq_zero, extract_eq_zero, forall_lt_succ_nat, Nat.not_lt_zero, false_implies, implies_true, true_and,
    Nat.reduceAdd]
  simp [and_assoc]

/-! ### What decodes -/

theorem accept_of {h : Header} {o : Word} {mbz : Header} {u : Bool} {i : Instr} (hm : h &&& mbz = 0)
    (ho : u = true ∨ o = 0) : accept h o mbz u i = .command i := by
  rw [accept, if_pos ⟨hm, ho⟩]

/-- A command with a defined opcode whose must-be-zero fields are all zero decodes to an instruction (30_encoding.md R75, R77). -/
theorem exists_decode {w : Nat} {cmd : Command} (h1 : ¬ Header.HasReservedOpcode cmd.h)
    (h2 : ¬ cmd.HasNonzeroReservedField w) : ∃ i, decode w cmd = .command i := by
  simp only [Command.HasNonzeroReservedField, not_or, not_and, ne_eq, not_not, Bool.not_eq_true] at h2
  obtain ⟨res, a1, a6, a7, a9, a10, ho⟩ := h2
  have zero : ∀ {lo n : Nat}, cmd.h.extractLsb' lo n = 0 → ∀ j, lo ≤ j → j < lo + n → cmd.h.getLsbD j = false := by
    intro lo n hz j h1 h2
    have := (extract_eq_zero _ _ _).mp hz (j - lo) (by omega)
    rwa [show lo + (j - lo) = j by omega] at this
  have regport : (fieldOp cmd.h).toNat ≤ 5 → cmd.h &&& 0x00FF = 0 := by
    intro e
    rw [mbz_regport, extract_eq_zero]
    intro j hj
    rcases (by omega : 0 + j = 0 ∨ (1 ≤ 0 + j ∧ 0 + j < 1 + 2) ∨ (3 ≤ 0 + j ∧ 0 + j < 3 + 5)) with h | h | h
    · rw [h]; exact (a1 e).2
    · exact zero res _ h.1 h.2
    · exact zero (a1 e).1 _ h.1 h.2
  have pin : 7 ≤ (fieldOp cmd.h).toNat → (fieldOp cmd.h).toNat ≤ 8 → cmd.h &&& 0x0307 = 0 := by
    intro e e'
    rw [mbz_pin]
    refine ⟨(a7 e e').1, (extract_eq_zero _ _ _).mpr fun j hj => ?_⟩
    rcases (by omega : 0 + j = 0 ∨ (1 ≤ 0 + j ∧ 0 + j < 1 + 2)) with h | h
    · rw [h]; exact (a7 e e').2
    · exact zero res _ h.1 h.2
  have high : 9 ≤ (fieldOp cmd.h).toNat → ∀ j, 1 ≤ j → j < 12 → cmd.h.getLsbD j = false := by
    intro e j h1 h2
    rcases (by omega : j < 1 + 2 ∨ (3 ≤ j ∧ j < 3 + 9)) with h | h
    · exact zero res _ h1 h
    · exact zero (a9 e) _ h.1 h.2
  have plain : 10 ≤ (fieldOp cmd.h).toNat → cmd.h &&& 0x0FFF = 0 := by
    intro e
    rw [mbz_plain, extract_eq_zero]
    intro j hj
    rcases (by omega : 0 + j = 0 ∨ 1 ≤ 0 + j) with h | h
    · rw [h]; exact a10 e
    · exact high (by omega) _ h (by omega)
  rcases fieldOp_cases cmd.h with e | e | e | e | e | e | e | e | e | e | e | e | e | e | e | e
  · exact absurd (.inl (BitVec.eq_of_toNat_eq e)) h1
  · exact ⟨_, (decode_op_rpRead e).trans (accept_of
      (regport (by omega)) (.inr (ho (by omega) (by omega) (by omega) (by omega))))⟩
  · exact ⟨_, (decode_op_rpWrite e).trans (accept_of (regport (by omega)) (.inl rfl))⟩
  · exact ⟨_, (decode_op_rpSet e).trans (accept_of (regport (by omega)) (.inl rfl))⟩
  · exact ⟨_, (decode_op_rpClear e).trans (accept_of (regport (by omega)) (.inl rfl))⟩
  · exact ⟨_, (decode_op_rpToggle e).trans (accept_of (regport (by omega)) (.inl rfl))⟩
  · exact ⟨_, (decode_op_pinWrite e).trans (accept_of
      ((mbz_pinWrite _).mpr ⟨a6 e, res⟩) (.inr (ho (by omega) (by omega) (by omega) (by omega))))⟩
  · exact ⟨_, (decode_op_pinToggle e).trans (accept_of
      (pin (by omega) (by omega)) (.inr (ho (by omega) (by omega) (by omega) (by omega))))⟩
  · exact ⟨_, (decode_op_pinRead e).trans (accept_of
      (pin (by omega) (by omega)) (.inr (ho (by omega) (by omega) (by omega) (by omega))))⟩
  · exact ⟨_, (decode_op_edPoll e).trans (accept_of
      ((mbz_edPoll _).mpr ((extract_eq_zero _ _ _).mpr fun j hj => high (by omega) _ (by omega) (by omega))) (.inr (ho (by omega) (by omega) (by omega) (by omega))))⟩
  · exact ⟨_, (decode_op_peStep e).trans (accept_of (plain (by omega)) (.inr (ho (by omega) (by omega) (by omega) (by omega))))⟩
  · exact ⟨_, (decode_op_peFlip e).trans (accept_of (plain (by omega)) (.inr (ho (by omega) (by omega) (by omega) (by omega))))⟩
  · exact ⟨_, (decode_op_tick e).trans (accept_of (plain (by omega)) (.inr (ho (by omega) (by omega) (by omega) (by omega))))⟩
  · exact absurd (.inr (.inl (BitVec.eq_of_toNat_eq e))) h1
  · exact absurd (.inr (.inr (.inl (BitVec.eq_of_toNat_eq e)))) h1
  · exact absurd (.inr (.inr (.inr (BitVec.eq_of_toNat_eq e)))) h1

end Sys2Proof
end

