-- ==== Sys2Proof/Laws/Memory.lean ====
section
/-! SUPPORT. The register memory: read after write, the canonical form, the byte view, and what a valid configuration says
(10_state.md R21, 20_memory.md R50 to R54, 70_reset_and_hazards.md R241). -/

namespace Sys2Proof.Machine

/-! ### Ports -/

theorem forall_port {P : Port → Prop} : (∀ p, P p) ↔ P 0 ∧ P 1 ∧ P 2 ∧ P 3 := by
  constructor
  · intro h; exact ⟨h 0, h 1, h 2, h 3⟩
  · rintro ⟨h0, h1, h2, h3⟩ p
    fin_cases p <;> assumption

theorem mem_ports (p : Port) : p ∈ ([0, 1, 2, 3] : List Port) := by revert p; decide

/-- Read after write of the register memory. -/
theorem Memory.get_set (m : Memory) (p q : Port) (x : PortRegs) : (m.set p x)[q] = if q = p then x else m[q] := by
  simp only [Fin.getElem_fin, Vector.getElem_set, Fin.ext_iff, eq_comm]

@[simp] theorem Memory.get_set_same (m : Memory) (p : Port) (x : PortRegs) : (m.set p x)[p] = x := by
  rw [Memory.get_set, if_pos rfl]

theorem Memory.get_set_other (m : Memory) {p q : Port} (x : PortRegs) (h : q ≠ p) : (m.set p x)[q] = m[q] := by
  rw [Memory.get_set, if_neg h]

theorem Memory.ext_port {m m' : Memory} (h : ∀ p : Port, m[p] = m'[p]) : m = m' := by
  apply Vector.ext
  intro i hi
  exact h ⟨i, hi⟩

/-- Writing back what a port holds changes nothing. -/
theorem Memory.set_self (m : Memory) (p : Port) (x : PortRegs) (h : x = m[p]) : m.set p x = m := by
  apply Memory.ext_port
  intro q
  rw [Memory.get_set]
  split
  · rw [h]; congr 1; exact Eq.symm ‹q = p›
  · rfl

/-! ### The canonical form -/

theorem Memory.wf_iff (c : Config) (m : Memory) :
    Memory.wf c m = true ↔
      ∀ p : Port, (c.hasPort p = true → (m[p]).fits c.w = true) ∧ (c.hasPort p = false → m[p] = PortRegs.absent) := by
  simp only [Memory.wf, List.all_eq_true]
  constructor
  · intro h p
    have := h p (mem_ports p)
    cases hp : c.hasPort p <;> simp_all
  · intro h p _
    have := h p
    cases hp : c.hasPort p <;> simp_all

theorem Memory.wf_odr_fits {c : Config} {m : Memory} (h : Memory.wf c m = true) (p : Port) :
    Word.fits c.w m[p].odr = true := by
  rw [Memory.wf_iff] at h
  cases hp : c.hasPort p
  · rw [(h p).2 hp]; exact fits_zero _
  · have := (h p).1 hp
    simp only [PortRegs.fits, Bool.and_eq_true] at this
    exact this.2

/-- A write of ODR keeps the canonical form. -/
theorem Memory.wf_set_odr {c : Config} {m : Memory} {p : Port} {v : Word} (h : Memory.wf c m = true)
    (hp : c.hasPort p = true) (hv : Word.fits c.w v = true) :
    Memory.wf c (m.set p { m[p] with odr := v }) = true := by
  rw [Memory.wf_iff] at *
  intro q
  rw [Memory.get_set]
  split
  · subst q
    have := (h p).1 hp
    simp only [PortRegs.fits, Bool.and_eq_true] at this
    exact ⟨fun _ => by simp only [PortRegs.fits, this, hv, Bool.and_self], fun hf => by simp [hp] at hf⟩
  · exact h q

@[simp] theorem resetOf_get (c : Config) (p : Port) : (State.resetOf c).regs[p] = launchRegs c p := by
  revert p
  rw [forall_port]
  exact ⟨rfl, rfl, rfl, rfl⟩

/-- The register memory after reset is in canonical form, under every configuration. -/
theorem resetOf_memory_wf (c : Config) : Memory.wf c (State.resetOf c).regs = true := by
  rw [Memory.wf_iff]
  intro p
  rw [resetOf_get]
  constructor <;> intro hp <;> simp [launchRegs, hp, PortRegs.fits, truncW_fits]

/-- `RegWrite` keeps the canonical form. -/
theorem regWrite_memory_wf {s : State} {p : Port} (v : Word) (h : Memory.wf s.cfg s.regs = true)
    (hp : s.cfg.hasPort p = true) : Memory.wf s.cfg (s.regWrite p v).regs = true :=
  Memory.wf_set_odr h hp (truncW_fits _ _)

theorem readModifyWrite_memory_wf {s : State} {p : Port} (f : Word → Word) (h : Memory.wf s.cfg s.regs = true)
    (hp : s.cfg.hasPort p = true) : Memory.wf s.cfg (s.readModifyWrite p f).regs = true :=
  Memory.wf_set_odr h hp (truncW_fits _ _)

/-! ### What a valid configuration says -/

theorem check_none_iff (c : Config) : c.check = none ↔ c.valid = true ∧ c.secondMaster = false := by
  unfold Config.check
  cases c.valid <;> cases c.secondMaster <;> simp

theorem mem_registers (c : Config) (p : Port) (r : Reg) : (p, r) ∈ c.registers ↔ c.hasPort p = true := by
  simp only [Config.registers, List.mem_flatMap, List.mem_filter]
  constructor
  · rintro ⟨q, ⟨_, hq⟩, h⟩
    simp only [List.mem_cons, Prod.mk.injEq, List.not_mem_nil, or_false] at h
    rcases h with ⟨rfl, _⟩ | ⟨rfl, _⟩ | ⟨rfl, _⟩ | ⟨rfl, _⟩ <;> exact hq
  · intro h
    exact ⟨p, ⟨mem_ports p, h⟩, by cases r <;> simp⟩

theorem registers_nodup (c : Config) : c.registers.Nodup := by
  simp only [Config.registers]
  rw [List.nodup_flatMap]
  constructor
  · intro p _; simp
  · apply List.Nodup.pairwise_of_forall_ne
    · exact List.Nodup.filter _ (by decide)
    · intro p _ q _ hpq
      simp [Function.onFun, List.Disjoint, hpq]

/-- The checks of R241, one by one. -/
theorem valid_iff (c : Config) :
    c.valid = true ↔
      ((c.w = 8 ∨ c.w = 16 ∨ c.w = 32) ∧ c.a = 32 ∧ 1 ≤ c.nports ∧ c.nports ≤ 4) ∧
      (c.hasPort c.outPort = true ∧ c.hasPort c.inPort = true) ∧
      (c.patternLsb + 8 ≤ c.w ∧ c.buttonBit < c.w) ∧
      (∀ i, i < 8 → c.pinDir c.outPort (c.patternLsb + i) = .output) ∧
      c.pinDir c.inPort c.buttonBit = .input ∧
      (∀ p r, c.hasPort p = true → (c.addr p r).toNat % c.accessBytes = 0) ∧
      (∀ p q r r', c.hasPort p = true → c.hasPort q = true → c.addr p r = c.addr q r' → p = q ∧ r = r') := by
  have h8 : ∀ P : Nat → Prop, (∀ x ∈ ([0, 1, 2, 3, 4, 5, 6, 7] : List Nat), P x) ↔ ∀ i, i < 8 → P i := by
    intro P
    constructor
    · intro h i hi
      exact h i (by simp; omega)
    · intro h x hx
      exact h x (by simp at hx; omega)
  have hal : (∀ x ∈ c.registers, (c.addr x.1 x.2).toNat % c.accessBytes = 0) ↔
      ∀ p r, c.hasPort p = true → (c.addr p r).toNat % c.accessBytes = 0 := by
    constructor
    · intro h p r hp
      exact h (p, r) ((mem_registers c p r).mpr hp)
    · rintro h ⟨p, r⟩ hx
      exact h p r ((mem_registers c p r).mp hx)
  have hnd : (c.registers.map fun pr => c.addr pr.1 pr.2).Nodup ↔
      ∀ p q r r', c.hasPort p = true → c.hasPort q = true → c.addr p r = c.addr q r' → p = q ∧ r = r' := by
    rw [List.nodup_map_iff_inj_on (registers_nodup c)]
    constructor
    · intro h p q r r' hp hq ha
      have := h (p, r) ((mem_registers c p r).mpr hp) (q, r') ((mem_registers c q r').mpr hq) ha
      simpa using this
    · rintro h ⟨p, r⟩ hp ⟨q, r'⟩ hq ha
      have := h p q r r' ((mem_registers c p r).mp hp) ((mem_registers c q r').mp hq) ha
      simp [this]
  simp only [Config.valid, Bool.and_eq_true, Bool.or_eq_true, beq_iff_eq, decide_eq_true_eq, List.all_eq_true, h8, hal, hnd]
  tauto

/-- What every register rule needs of an admitted configuration. -/
theorem check_none_width {c : Config} (h : c.check = none) : c.w = 8 ∨ c.w = 16 ∨ c.w = 32 :=
  ((valid_iff c).mp ((check_none_iff c).mp h).1).1.1

theorem check_none_outPort {c : Config} (h : c.check = none) : c.hasPort c.outPort = true :=
  ((valid_iff c).mp ((check_none_iff c).mp h).1).2.1.1

theorem check_none_span {c : Config} (h : c.check = none) : c.patternLsb + 8 ≤ c.w :=
  ((valid_iff c).mp ((check_none_iff c).mp h).1).2.2.1.1

theorem check_none_buttonBit {c : Config} (h : c.check = none) : c.buttonBit < c.w :=
  ((valid_iff c).mp ((check_none_iff c).mp h).1).2.2.1.2

theorem check_none_span_output {c : Config} (h : c.check = none) {i : Nat} (hi : i < 8) :
    c.pinDir c.outPort (c.patternLsb + i) = .output :=
  ((valid_iff c).mp ((check_none_iff c).mp h).1).2.2.2.1 i hi

theorem hasPort_iff (c : Config) (p : Port) : c.hasPort p = true ↔ p.val < c.nports := by simp [Config.hasPort]

/-! ### The byte view -/

theorem locate_some {c : Config} {a : Nat} {p : Port} {r : Reg} {k : Nat} (h : c.locate a = some (p, r, k)) :
    c.hasPort p = true ∧ c.inRegister p r a ∧ k = a - (c.addr p r).toNat := by
  unfold Config.locate at h
  rw [Option.map_eq_some_iff] at h
  obtain ⟨⟨q, r'⟩, hf, he⟩ := h
  simp only [Prod.mk.injEq] at he
  obtain ⟨rfl, rfl, rfl⟩ := he
  have h1 := List.find?_some hf
  have h2 := List.mem_of_find?_eq_some hf
  simp only [Bool.and_eq_true, decide_eq_true_eq] at h1
  exact ⟨(mem_registers c q r').mp h2, h1, rfl⟩

/-- In an admitted configuration no byte belongs to two registers (20_memory.md R52). -/
theorem inRegister_unique {c : Config} (h : c.check = none) {p q : Port} {r r' : Reg} {a : Nat}
    (hp : c.hasPort p = true) (hq : c.hasPort q = true) (h1 : c.inRegister p r a) (h2 : c.inRegister q r' a) :
    p = q ∧ r = r' := by
  have hv := (valid_iff c).mp ((check_none_iff c).mp h).1
  refine hv.2.2.2.2.2.2 p q r r' hp hq ?_
  have m1 := hv.2.2.2.2.2.1 p r hp
  have m2 := hv.2.2.2.2.2.1 q r' hq
  apply BitVec.eq_of_toNat_eq
  rcases hv.1.1 with hw | hw | hw <;> simp only [Config.inRegister, Config.accessBytes, hw] at * <;> omega

/-- In an admitted configuration a byte of a register is found in that register. -/
theorem locate_of_inRegister {c : Config} (h : c.check = none) {p : Port} {r : Reg} {a : Nat}
    (hp : c.hasPort p = true) (ha : c.inRegister p r a) : c.locate a = some (p, r, a - (c.addr p r).toNat) := by
  cases hl : c.locate a with
  | none =>
    unfold Config.locate at hl
    rw [Option.map_eq_none_iff, List.find?_eq_none] at hl
    have := hl (p, r) ((mem_registers c p r).mpr hp)
    simp only [Bool.and_eq_true, decide_eq_true_eq] at this
    exact absurd ha this
  | some x =>
    obtain ⟨q, r', k⟩ := x
    obtain ⟨hq, hin, rfl⟩ := locate_some hl
    obtain ⟨rfl, rfl⟩ := inRegister_unique h hp hq ha hin
    rfl

/-- The byte view depends on the configuration and the registers only. -/
theorem readByte_congr {s t : State} (hc : t.cfg = s.cfg) (hr : t.regs = s.regs) (a : Nat) :
    t.readByte a = s.readByte a := by
  simp only [State.readByte, hc]
  cases s.cfg.locate a with
  | none => rfl
  | some x => obtain ⟨p, r, k⟩ := x; cases r <;> simp [State.stored, hr]

/-- Where only ODR of one port changed, every byte outside it reads as before. -/
theorem readByte_outside {s t : State} {p : Port} (hc : t.cfg = s.cfg) (hk : t.regs[p].clken = s.regs[p].clken)
    (hm : t.regs[p].mode = s.regs[p].mode) (ho : ∀ q : Port, q ≠ p → t.regs[q] = s.regs[q]) {a : Nat}
    (ha : ¬ s.cfg.inRegister p .odr a) : t.readByte a = s.readByte a := by
  simp only [State.readByte, hc]
  cases hl : s.cfg.locate a with
  | none => rfl
  | some x =>
    obtain ⟨q, r, k⟩ := x
    obtain ⟨_, hin, _⟩ := locate_some hl
    by_cases hq : q = p
    · subst hq
      cases r
      · simp only [State.stored, hk]
      · simp only [State.stored, hm]
      · simp only [State.stored]
      · exact absurd hin ha
    · cases r <;> simp only [State.stored, ho q hq]

end Sys2Proof.Machine
end

