-- ==== Sys2Proof/Laws/Exec.lean ====
section
/-! SUPPORT. What a command can do, said once: it is refused for the first reason that applies, or its rule runs; and what each rule's run
leaves. -/

namespace Sys2Proof.Machine

/-- The effect of each command's rule once its checks have passed. -/
def runOf (i : Instr) (s : State) : State :=
  match i with
  | .rpRead p r => (s.afterRead p r).respond (.word s.cfg.w (s.readValue p r))
  | .rpWrite p _ word => s.regWrite p word
  | .rpSet p _ mask => s.readModifyWrite p fun old => old ||| mask
  | .rpClear p _ mask => s.readModifyWrite p fun old => old &&& ~~~mask
  | .rpToggle p _ mask => s.readModifyWrite p fun old => old ^^^ mask
  | .pinWrite p b v => s.readModifyWrite p (pinValue b v)
  | .pinToggle p b => s.readModifyWrite p fun old => old ^^^ bitMask b
  | .pinRead p b => (s.afterRead p .idr).respond (.bit (pinLevel b (s.readValue p .idr)))
  | .edPoll smp => (s.setPrev smp).respond (.bit (edge s.prev smp))
  | .peStep => s.stepPattern.respond (.mask s.stepPattern.mask)
  | .peFlip => s.flip
  | .tick =>
    ((s.afterRead s.cfg.inPort .idr).pollAndFlip
      (sample s.cfg (s.readValue s.cfg.inPort .idr))).stepPattern.showPattern.delayStart

@[simp] theorem guarded_none (s : State) (run : State → State) : guarded none s run = .next (run s) := rfl

@[simp] theorem guarded_some (r : Reason) (s : State) (run : State → State) :
    guarded (some r) s run = .next (s.refuse r) := rfl

theorem guarded_next (check : Option Reason) (s : State) (run : State → State) : ∃ t, guarded check s run = .next t := by
  cases check <;> exact ⟨_, rfl⟩

/-- Every command is refused for the first reason that applies to it (60_exceptions.md R216), or runs. -/
theorem exec_eq (i : Instr) (s : State) : exec i s = guarded (i.firstRefusal s.cfg) s (runOf i) := by
  cases i <;> simp only [exec, execRpRead, execRpWrite, execRpSet, execRpClear, execRpToggle, execPinWrite, execPinToggle,
    execPinRead, execEdPoll, execPeStep, execPeFlip, execTick, State.regRead, checkWrite, checkPin, checkPort, checkBit,
    checkDir, checkWritable, checkFlip]
  case rpRead p r =>
    by_cases h : s.cfg.nports ≤ p.val <;>
      simp [Instr.firstRefusal, Instr.usedPort, Instr.usedBit, Instr.writtenReg, Instr.neededDir, Config.hasPort, h,
        Nat.not_lt.mpr, Nat.lt_of_not_le, runOf]
  case rpWrite p r w | rpSet p r w | rpClear p r w | rpToggle p r w =>
    by_cases h : s.cfg.nports ≤ p.val <;> by_cases hr : r = .odr <;>
      simp [Instr.firstRefusal, Instr.usedPort, Instr.usedBit, Instr.writtenReg, Instr.neededDir, Config.hasPort, h, hr,
        Nat.not_lt.mpr, Nat.lt_of_not_le, runOf]
  case pinWrite p b v | pinToggle p b | pinRead p b =>
    by_cases h : s.cfg.nports ≤ p.val <;> by_cases hb : s.cfg.w ≤ b.val <;>
      simp [Instr.firstRefusal, Instr.usedPort, Instr.usedBit, Instr.writtenReg, Instr.neededDir, Config.hasPort, h, hb,
        Nat.not_lt.mpr, Nat.lt_of_not_le]
    split <;> simp_all [runOf]
  case peFlip =>
    cases hv : s.cfg.variant <;>
      simp [Instr.firstRefusal, Instr.usedPort, Instr.usedBit, Instr.writtenReg, Instr.neededDir, hv, runOf]
  all_goals
    simp [Instr.firstRefusal, Instr.usedPort, Instr.usedBit, Instr.writtenReg, Instr.neededDir, runOf]

/-- What a command answers: a refusal's mark, or its rule's run; never a fault. -/
theorem exec_cases {i : Instr} {s t : State} (h : exec i s = .next t) :
    (∃ r, i.firstRefusal s.cfg = some r ∧ t = s.refuse r) ∨ (i.firstRefusal s.cfg = none ∧ t = runOf i s) := by
  rw [exec_eq] at h
  cases hf : i.firstRefusal s.cfg with
  | some r => rw [hf, guarded_some] at h; cases h; exact .inl ⟨r, rfl, rfl⟩
  | none => rw [hf, guarded_none] at h; cases h; exact .inr ⟨rfl, rfl⟩

theorem exec_total (i : Instr) (s : State) : ∃ t, exec i s = .next t := by
  rw [exec_eq]; exact guarded_next _ _ _

theorem exec_of_admitted {i : Instr} {s : State} (h : i.firstRefusal s.cfg = none) : exec i s = .next (runOf i s) := by
  rw [exec_eq, h, guarded_none]

/-! ### What no rule changes -/

@[simp] theorem runOf_cfg (i : Instr) (s : State) : (runOf i s).cfg = s.cfg := by cases i <;> simp [runOf]

@[simp] theorem runOf_refused (i : Instr) (s : State) : (runOf i s).refused = s.refused := by cases i <;> simp [runOf]

@[simp] theorem runOf_issuer (i : Instr) (s : State) : (runOf i s).issuer = s.issuer := by cases i <;> simp [runOf]

/-- The port whose ODR a command writes, if it writes one. -/
def odrTarget (c : Config) (i : Instr) : Option Port :=
  match i with
  | .rpRead _ _ => none
  | .rpWrite p _ _ => some p
  | .rpSet p _ _ => some p
  | .rpClear p _ _ => some p
  | .rpToggle p _ _ => some p
  | .pinWrite p _ _ => some p
  | .pinToggle p _ => some p
  | .pinRead _ _ => none
  | .edPoll _ => none
  | .peStep => none
  | .peFlip => none
  | .tick => some c.outPort

/-- A rule writes ODR of its target, a W-bit value, or no register at all. -/
theorem runOf_regs (i : Instr) (s : State) :
    (odrTarget s.cfg i = none ∧ (runOf i s).regs = s.regs) ∨
    ∃ p v, odrTarget s.cfg i = some p ∧ (runOf i s).regs = s.regs.set p { s.regs[p] with odr := truncW s.cfg.w v } := by
  cases i
  case rpRead | pinRead | edPoll | peStep | peFlip => exact .inl ⟨rfl, by simp [runOf]⟩
  all_goals exact .inr ⟨_, _, rfl, by simp [runOf]; try rfl⟩

/-- CLKEN and MODE are never written (10_state.md R21). -/
theorem runOf_setup (i : Instr) (s : State) (q : Port) :
    (runOf i s).regs[q].clken = s.regs[q].clken ∧ (runOf i s).regs[q].mode = s.regs[q].mode := by
  rcases runOf_regs i s with ⟨_, h⟩ | ⟨p, v, _, h⟩
  · rw [h]; exact ⟨rfl, rfl⟩
  · rw [h, Memory.get_set]
    split
    · subst q; exact ⟨rfl, rfl⟩
    · exact ⟨rfl, rfl⟩

/-- The target of a command that is not refused is a port of the block. -/
theorem odrTarget_hasPort {c : Config} (hc : c.check = none) {i : Instr} (h : i.firstRefusal c = none) {p : Port}
    (hp : odrTarget c i = some p) : c.hasPort p = true := by
  rw [hasPort_iff]
  by_contra hn
  rw [Nat.not_lt] at hn
  cases i <;> simp only [odrTarget, Option.some.injEq, reduceCtorEq] at hp
  case tick =>
    subst hp
    have := (hasPort_iff c c.outPort).mp (check_none_outPort hc)
    omega
  all_goals
    subst hp
    simp [Instr.firstRefusal, Instr.usedPort, hn] at h

theorem runOf_memory_wf {i : Instr} {s : State} (hc : s.cfg.check = none) (hf : i.firstRefusal s.cfg = none)
    (hw : Memory.wf s.cfg s.regs = true) : Memory.wf s.cfg (runOf i s).regs = true := by
  rcases runOf_regs i s with ⟨_, h⟩ | ⟨p, v, ht, h⟩
  · rw [h]; exact hw
  · rw [h]; exact Memory.wf_set_odr hw (odrTarget_hasPort hc hf ht) (truncW_fits _ _)

/-! ### The events a rule records -/

/-- A rule only appends to the history. -/
theorem runOf_hist (i : Instr) (s : State) : ∃ es, (runOf i s).hist = s.hist ++ es := by
  cases i <;> exact ⟨_, by simp [runOf]; try rfl⟩

/-! ### TICK, field by field -/

/-- The sample a TICK takes (45_control_loop.md R191). -/
def tickSample (s : State) : Bool := sample s.cfg (truncW s.cfg.w s.env.next)

/-- The direction a TICK steps in, after its flip (45_control_loop.md R190 step 3, R196). -/
def tickDir (s : State) : Dir :=
  if edge s.prev (tickSample s) = true ∧ s.cfg.variant = .rotate then flipDir s.dir else s.dir

/-- The mask and direction a TICK commits (45_control_loop.md R190 step 4). -/
def tickNext (s : State) : Byte × Dir := patternNext s.cfg s.mask (tickDir s)

theorem runOf_tick_mask (s : State) : (runOf .tick s).mask = (tickNext s).1 := by
  simp [runOf, tickNext, tickDir, tickSample, State.pollAndFlip_dir]; congr

theorem runOf_tick_dir (s : State) : (runOf .tick s).dir = (tickNext s).2 := by
  simp [runOf, tickNext, tickDir, tickSample, State.pollAndFlip_dir]; congr

theorem runOf_tick_prev (s : State) : (runOf .tick s).prev = tickSample s := by simp [runOf, tickSample]

theorem runOf_tick_regs (s : State) : (runOf .tick s).regs =
    s.regs.set s.cfg.outPort { s.regs[s.cfg.outPort] with
      odr := truncW s.cfg.w (patternMerge s.cfg s.regs[s.cfg.outPort].odr (tickNext s).1) } := by
  rw [← runOf_tick_mask]
  simp only [runOf, State.delayStart_regs, State.showPattern_regs, State.delayStart_mask, State.showPattern_mask,
    State.stepPattern_regs, State.pollAndFlip_regs, State.afterRead_regs, State.stepPattern_cfg, State.pollAndFlip_cfg,
    State.afterRead_cfg]

theorem runOf_tick_hist (s : State) : (runOf .tick s).hist =
    s.hist ++ [.rd s.cfg.inPort .idr (truncW s.cfg.w s.env.next), .rd s.cfg.outPort .odr s.regs[s.cfg.outPort].odr,
      .wr s.cfg.outPort .odr (truncW s.cfg.w (patternMerge s.cfg s.regs[s.cfg.outPort].odr (tickNext s).1)),
      .delayStart s.cfg.tickDuration] := by
  rw [← runOf_tick_mask]
  simp [runOf]

/-! ### Which commands are admitted -/

/-- A command that one of the checks refuses sets the mark and does nothing else (60_exceptions.md R212). -/
theorem exec_of_refused {i : Instr} {s : State} {r : Reason} (h : i.firstRefusal s.cfg = some r) :
    exec i s = .next (s.refuse r) := by
  rw [exec_eq, h]; rfl

theorem firstRefusal_edPoll (c : Config) (smp : Bool) : Instr.firstRefusal c (.edPoll smp) = none := by
  simp [Instr.firstRefusal, Instr.usedPort, Instr.usedBit, Instr.writtenReg, Instr.neededDir]

theorem firstRefusal_peStep (c : Config) : Instr.firstRefusal c .peStep = none := by
  simp [Instr.firstRefusal, Instr.usedPort, Instr.usedBit, Instr.writtenReg, Instr.neededDir]

theorem firstRefusal_tick (c : Config) : Instr.firstRefusal c .tick = none := by
  simp [Instr.firstRefusal, Instr.usedPort, Instr.usedBit, Instr.writtenReg, Instr.neededDir]

theorem firstRefusal_peFlip (c : Config) :
    Instr.firstRefusal c .peFlip = if c.variant = .bounce then some .flipInBounce else none := by
  simp [Instr.firstRefusal, Instr.usedPort, Instr.usedBit, Instr.writtenReg, Instr.neededDir]

end Sys2Proof.Machine
end

