-- ==== Sys2Proof/Laws/PerInstr.lean ====
section
/-! SUPPORT. What holds of every command as syntax, one lemma per command. -/

namespace Sys2Proof.Laws

/-- The header a command is encoded as holds its opcode in `H[15:12]`, the opcode is one of the twelve, and the reserved bits `H[2:1]`
are zero (30_encoding.md R71, R73, R80). -/
def EncodeOpcode.Statement (i : Instr) : Prop :=
  (fieldOp (encode i).h).toNat = i.opcode ∧ 1 ≤ i.opcode ∧ i.opcode ≤ 12 ∧ (encode i).h.extractLsb' 1 2 = 0

theorem code_lt (r : Reg) : r.code < 4 := by cases r <;> decide

theorem bit_lt (v : Bool) : v.toNat < 2 := by cases v <;> decide

theorem opcode_range (i : Instr) : 1 ≤ i.opcode ∧ i.opcode ≤ 12 := by cases i <;> simp [Instr.opcode]

/-- A header built from fields in range has its opcode in `H[15:12]` and zero reserved bits. -/
theorem opcode_of_header {op p r b v : Nat} (ho : 1 ≤ op ∧ op ≤ 12) (hp : p < 4) (hr : r < 4) (hb : b < 32) (hv : v < 2) :
    (fieldOp (header op p r b v)).toNat = op ∧ 1 ≤ op ∧ op ≤ 12 ∧ (header op p r b v).extractLsb' 1 2 = 0 := by
  refine ⟨fieldOp_header (by omega) hp hr hb hv, ho.1, ho.2, ?_⟩
  apply BitVec.eq_of_toNat_eq
  rw [extract_toNat, header_toNat (by omega) hp hr hb hv]
  change _ = 0
  omega

theorem EncodeOpcode.rpRead (p : Port) (r : Reg) : EncodeOpcode.Statement (.rpRead p r) :=
  opcode_of_header (opcode_range _) p.isLt (code_lt r) (by decide) (by decide)

theorem EncodeOpcode.rpWrite (p : Port) (r : Reg) (word : Word) : EncodeOpcode.Statement (.rpWrite p r word) :=
  opcode_of_header (opcode_range _) p.isLt (code_lt r) (by decide) (by decide)

theorem EncodeOpcode.rpSet (p : Port) (r : Reg) (mask : Word) : EncodeOpcode.Statement (.rpSet p r mask) :=
  opcode_of_header (opcode_range _) p.isLt (code_lt r) (by decide) (by decide)

theorem EncodeOpcode.rpClear (p : Port) (r : Reg) (mask : Word) : EncodeOpcode.Statement (.rpClear p r mask) :=
  opcode_of_header (opcode_range _) p.isLt (code_lt r) (by decide) (by decide)

theorem EncodeOpcode.rpToggle (p : Port) (r : Reg) (mask : Word) : EncodeOpcode.Statement (.rpToggle p r mask) :=
  opcode_of_header (opcode_range _) p.isLt (code_lt r) (by decide) (by decide)

theorem EncodeOpcode.pinWrite (p : Port) (b : BitIndex) (v : Bool) : EncodeOpcode.Statement (.pinWrite p b v) :=
  opcode_of_header (opcode_range _) p.isLt (by decide) b.isLt (bit_lt v)

theorem EncodeOpcode.pinToggle (p : Port) (b : BitIndex) : EncodeOpcode.Statement (.pinToggle p b) :=
  opcode_of_header (opcode_range _) p.isLt (by decide) b.isLt (by decide)

theorem EncodeOpcode.pinRead (p : Port) (b : BitIndex) : EncodeOpcode.Statement (.pinRead p b) :=
  opcode_of_header (opcode_range _) p.isLt (by decide) b.isLt (by decide)

theorem EncodeOpcode.edPoll (smp : Bool) : EncodeOpcode.Statement (.edPoll smp) :=
  opcode_of_header (opcode_range _) (by decide) (by decide) (by decide) (bit_lt smp)

theorem EncodeOpcode.peStep : EncodeOpcode.Statement .peStep :=
  opcode_of_header (opcode_range _) (by decide) (by decide) (by decide) (by decide)

theorem EncodeOpcode.peFlip : EncodeOpcode.Statement .peFlip :=
  opcode_of_header (opcode_range _) (by decide) (by decide) (by decide) (by decide)

theorem EncodeOpcode.tick : EncodeOpcode.Statement .tick :=
  opcode_of_header (opcode_range _) (by decide) (by decide) (by decide) (by decide)

end Sys2Proof.Laws
end

