-- ==== Sys2Proof/Laws/Step.lean ====
section
/-! SUPPORT. What one step of the block can be, said once (60_exceptions.md R216). -/

namespace Sys2Proof.Machine

theorem step_of_refused {s : State} {r : Reason} (h : s.refused = some r) : step s = .fault .stuckAfterRefusal := by
  simp [step, h]

theorem step_of_busy {s : State} (hr : s.refused = none) (hb : s.busy = true) : step s = .next s.delayEnd := by
  simp [step, hr, hb]

theorem step_of_idle {s : State} (h : s.Ready) (ht : s.takeCommand = none) : step s = .next s := by
  simp [step, h.1, h.2, ht]

theorem step_of_undecoded {s s' : State} {cmd : Command} {r : Reason} (h : s.Ready)
    (ht : s.takeCommand = some (cmd, s')) (hd : decode s.cfg.w cmd = .refuse r) : step s = .next (s'.refuse r) := by
  simp [step, h.1, h.2, ht, hd]

theorem step_of_decoded {s s' : State} {cmd : Command} {i : Instr} (h : s.Ready)
    (ht : s.takeCommand = some (cmd, s')) (hd : decode s.cfg.w cmd = .command i) : step s = exec i s' := by
  simp [step, h.1, h.2, ht, hd]

/-- Taking a command changes the issuer only. -/
theorem takeCommand_some {s s' : State} {cmd : Command} (h : s.takeCommand = some (cmd, s')) :
    ∃ iss, s.issuer.take = some (cmd, iss) ∧ s' = s.withIssuer iss := by
  unfold State.takeCommand at h
  rw [Option.map_eq_some_iff] at h
  obtain ⟨⟨c, iss⟩, ht, he⟩ := h
  simp only [Prod.mk.injEq] at he
  exact ⟨iss, by rw [ht, he.1], he.2.symm⟩

/-- Every step that answers a next state is one of five: DelayEnd, waiting, a refusal by the decoder or by the command's checks, or
the run of a command's rule at the state with its command taken. -/
theorem step_cases {s t : State} (h : step s = .next t) :
    s.refused = none ∧
    ((s.busy = true ∧ t = s.delayEnd) ∨
      (s.busy = false ∧ (t = s ∨
        ∃ iss, (∃ r, t = (s.withIssuer iss).refuse r) ∨
          ∃ i, i.firstRefusal s.cfg = none ∧ t = runOf i (s.withIssuer iss)))) := by
  cases hr : s.refused with
  | some r => rw [step_of_refused hr] at h; cases h
  | none =>
    refine ⟨rfl, ?_⟩
    cases hb : s.busy with
    | true => rw [step_of_busy hr hb] at h; cases h; exact .inl ⟨rfl, rfl⟩
    | false =>
      refine .inr ⟨rfl, ?_⟩
      cases ht : s.takeCommand with
      | none => rw [step_of_idle ⟨hr, hb⟩ ht] at h; cases h; exact .inl rfl
      | some x =>
        obtain ⟨cmd, s'⟩ := x
        obtain ⟨iss, _, rfl⟩ := takeCommand_some ht
        refine .inr ⟨iss, ?_⟩
        cases hd : decode s.cfg.w cmd with
        | refuse r => rw [step_of_undecoded ⟨hr, hb⟩ ht hd] at h; cases h; exact .inl ⟨r, rfl⟩
        | command i =>
          rw [step_of_decoded ⟨hr, hb⟩ ht hd] at h
          rcases exec_cases h with ⟨r, _, rfl⟩ | ⟨hf, rfl⟩
          · exact .inl ⟨r, rfl⟩
          · exact .inr ⟨i, hf, rfl⟩

/-! ### Runs -/

/-- One step of a run of any machine. -/
theorem run_of_step {M : Host.Core} {s t : M.State} (h : M.step s = .next t) (k : Nat) : M.run (k + 1) s = M.run k t := by
  rw [Host.Core.run, h]

/-- One step of a run of this machine. -/
theorem core_run_of_step {s t : State} (h : step s = .next t) (k : Nat) :
    Sys2Proof.core.run (k + 1) s = Sys2Proof.core.run k t :=
  run_of_step (M := Sys2Proof.core) h k

/-- Commands run one after another: the first, then the rest. -/
theorem execAll_cons {i : Instr} {rest : List Instr} {s t : State} (h : exec i s = .next t) :
    execAll (i :: rest) s = execAll rest t := by
  rw [execAll, h]

end Sys2Proof.Machine
end

