-- ==== Sys2Proof/Tests/Slice0.lean ====
section
/-! SUPPORT. Small tests, each with its expected result from the spec (95_test_vectors.md unless another section is named), and for
every statement with hypotheses a witness that meets them. -/

open Sys2Proof Sys2Proof.Machine

namespace Sys2Proof.Tests

/-! ### Helpers -/

/-- The default configuration in the Bounce variant. -/
def bounceCfg : Config := { Config.reference with variant := .bounce }

/-- The default configuration with 8-bit registers. -/
def cfg8 : Config := { Config.reference with w := 8 }

/-- The configuration of program P5: one port, a shifted span, an active-low button. -/
def p5Cfg : Config :=
  { Config.reference with
    nports := 1, inPort := 0, patternLsb := 8, inputInvert := true, initDir := .reverse
    pindir := #v[pinsOf [8, 9, 10, 11, 12, 13, 14, 15] [0], pinsOf [] [], pinsOf [] [], pinsOf [] []]
    odr0 := #v[0x000000F0, 0, 0, 0] }

/-- A state after reset under a configuration, with ODR of port 0 and the coming draws given. -/
def at0 (c : Config) (odr : Word) (ins : List Word) : State :=
  { State.resetOf { c with odr0 := #v[odr, 0, 0, 0] } with env := { inputs := ins, draws := 0 } }

/-- The same in the default configuration. -/
def withOdr (odr : Word) : State := at0 Config.reference odr []

/-- A state with a pattern and a direction. -/
def pattern (c : Config) (m : Byte) (d : Dir) : State := { State.resetOf c with mask := m, dir := d }

/-- A state with one command presented. -/
def presented (cmd : Command) : State := State.reset.withIssuer { queue := [cmd], repeats := none }

/-- The outcome is a next state that passes a check. -/
def gives (o : Host.Outcome State Fault Refusal) (f : State → Bool) : Bool :=
  match o with
  | .next t => f t
  | .fault _ => false
  | .refused _ => false

/-- The outcome is the fault of a refused block. -/
def isStuck (o : Host.Outcome State Fault Refusal) : Bool :=
  match o with
  | .next _ => false
  | .fault .stuckAfterRefusal => true
  | .refused _ => false

/-! ### Well-formedness and decoding -/

theorem test_wf_refuses_wide_write : (Instr.rpWrite 0 .odr 0x100).wf 8 = false := by decide
theorem test_wf_refuses_wide_set : (Instr.rpSet 0 .odr 0x10000).wf 16 = false := by decide
theorem test_wf_refuses_wide_clear : (Instr.rpClear 0 .odr 0x80000000).wf 16 = false := by decide
theorem test_wf_refuses_wide_toggle : (Instr.rpToggle 0 .odr 0xFFFFFFFF).wf 8 = false := by decide
theorem test_wf_accepts_full_width : (Instr.rpWrite 3 .odr 0xFF).wf 8 = true := by decide

theorem test_decode_rp_read : decode 32 ⟨0x1300, 0⟩ = .command (.rpRead 0 .odr) := by decide
theorem test_decode_rp_read_mode : decode 32 ⟨0x1100, 0⟩ = .command (.rpRead 0 .mode) := by decide
theorem test_decode_rp_write : decode 32 ⟨0x2000, 1⟩ = .command (.rpWrite 0 .clken 1) := by decide
theorem test_decode_rp_set : decode 32 ⟨0x3300, 0xF00⟩ = .command (.rpSet 0 .odr 0xF00) := by decide
theorem test_decode_rp_clear : decode 32 ⟨0x4300, 0xF⟩ = .command (.rpClear 0 .odr 0xF) := by decide
theorem test_decode_rp_toggle : decode 32 ⟨0x5300, 0xFFFFFFFF⟩ = .command (.rpToggle 0 .odr 0xFFFFFFFF) := by decide
theorem test_decode_pin_write : decode 32 ⟨0x6401, 0⟩ = .command (.pinWrite 1 0 true) := by decide
theorem test_decode_pin_write_zero : decode 32 ⟨0x6008, 0⟩ = .command (.pinWrite 0 1 false) := by decide
theorem test_decode_pin_toggle : decode 32 ⟨0x7038, 0⟩ = .command (.pinToggle 0 7) := by decide
theorem test_decode_pin_read : decode 32 ⟨0x8400, 0⟩ = .command (.pinRead 1 0) := by decide
theorem test_decode_ed_poll : decode 32 ⟨0x9000, 0⟩ = .command (.edPoll false) := by decide
theorem test_decode_pe_step : decode 32 ⟨0xA000, 0⟩ = .command .peStep := by decide
theorem test_decode_pe_flip : decode 32 ⟨0xB000, 0⟩ = .command .peFlip := by decide
theorem test_decode_tick : decode 32 ⟨0xC000, 0⟩ = .command .tick := by decide

/-- A word written out bit by bit from 30_encoding.md R71: op 0110, p 11, r 00, b 11111, res 00, v 1. -/
theorem test_decode_pin_write_bits : decode 32 ⟨0b0110110011111001, 0⟩ = .command (.pinWrite 3 31 true) := by decide

theorem test_decode_operand_word : decode 32 ⟨0x1300, 1⟩ = .refuse .reservedField := by decide
theorem test_decode_res : decode 32 ⟨0x1F02, 0⟩ = .refuse .reservedField := by decide
theorem test_decode_pin_write_r : decode 32 ⟨0x6101, 0⟩ = .refuse .reservedField := by decide
theorem test_decode_pin_toggle_v : decode 32 ⟨0x7001, 0⟩ = .refuse .reservedField := by decide
theorem test_decode_ed_poll_res : decode 32 ⟨0x9002, 0⟩ = .refuse .reservedField := by decide

/-- 30_encoding.md R74. -/
theorem test_decode_reserved_opcodes :
    ∀ cmd ∈ ([⟨0x0000, 0⟩, ⟨0xD000, 0⟩, ⟨0xE000, 0⟩, ⟨0xF000, 0⟩] : List Command),
      decode 32 cmd = .refuse .reservedOpcode := by decide

theorem test_encode_examples : encode (.rpRead 1 .idr) = ⟨0x1600, 0⟩ ∧ encode (.pinWrite 0 3 true) = ⟨0x6019, 0⟩ ∧
    encode (.rpWrite 0 .odr 0xAA) = ⟨0x2300, 0xAA⟩ := by decide

/-- The 48-bit word `H:O` of 30_encoding.md R70 and R80. -/
theorem test_serial : Command.serial 32 ⟨0x2300, 0xAA⟩ = 0x2300000000AA := by decide

/-- 30_encoding.md R79. -/
theorem test_pseudo : (Pseudo.pinSet 0 3).expand = .pinWrite 0 3 true ∧ (Pseudo.pinClr 0 3).expand = .pinWrite 0 3 false ∧
    (Pseudo.rpReadOdr 1).expand = .rpRead 1 .odr := by decide

/-- The examples of 30_encoding.md R80. -/
theorem test_asm : (Instr.rpWrite 0 .odr 0xAA).asm = "rp.write 0, ODR, 0xAA" ∧
    (Instr.pinWrite 0 3 true).asm = "pin.write 0, 3, 1" := by decide

theorem test_table_word : decodeTableWord 16 0xC000 = some .tick ∧ decodeTableWord 48 0xAA2300 = some (.rpWrite 0 .odr 0xAA) ∧
    decodeTableWord 16 0xD000 = none := by decide

/-! ### One step of each command -/

theorem test_rp_read_idr : gives (exec (.rpRead 1 .idr) (at0 Config.reference 0 [5])) (fun t =>
    t.hist == [.rd 1 .idr 5, .resp (.word 32 5)]) = true := by decide

theorem test_rp_read_bad_port : gives (exec (.rpRead 2 .odr) State.reset) (fun t => t.refused == some .badPort) = true := by
  decide

theorem test_rp_write : gives (exec (.rpWrite 0 .odr 0xAA) (withOdr 0)) (fun t =>
    t.regs[0].odr == 0xAA && t.hist == [.wr 0 .odr 0xAA]) = true := by decide

theorem test_rp_write_clken : gives (exec (.rpWrite 0 .clken 1) State.reset) (fun t =>
    t.refused == some .readOnlyRegister && t.hist == []) = true := by decide

theorem test_rp_set : gives (exec (.rpSet 0 .odr 0xF00) (withOdr 0x2B)) (fun t =>
    t.hist == [.rd 0 .odr 0x2B, .wr 0 .odr 0xF2B]) = true := by decide

/-- A mask of zero still reads and writes. -/
theorem test_rp_set_zero : gives (exec (.rpSet 0 .odr 0) (withOdr 0x12345678)) (fun t =>
    t.hist == [.rd 0 .odr 0x12345678, .wr 0 .odr 0x12345678]) = true := by decide

theorem test_rp_clear : gives (exec (.rpClear 0 .odr 0xF) (withOdr 0xF2B)) (fun t => t.regs[0].odr == 0xF20) = true := by
  decide

theorem test_rp_clear_all : gives (exec (.rpClear 0 .odr 0xFFFFFFFF) (withOdr 0x12345678)) (fun t =>
    t.hist == [.rd 0 .odr 0x12345678, .wr 0 .odr 0]) = true := by decide

theorem test_rp_toggle : gives (exec (.rpToggle 0 .odr 0x00FF00FF) (withOdr 0xFFFF)) (fun t =>
    t.regs[0].odr == 0x00FFFF00) = true := by decide

theorem test_rp_toggle_all : gives (exec (.rpToggle 0 .odr 0xFFFFFFFF) (withOdr 0xF20)) (fun t =>
    t.regs[0].odr == 0xFFFFF0DF) = true := by decide

/-- Writing the value a bit already has still reads and writes; every other bit is kept. -/
theorem test_pin_write : gives (exec (.pinWrite 0 3 true) (withOdr 0xAA)) (fun t =>
      t.hist == [.rd 0 .odr 0xAA, .wr 0 .odr 0xAA]) = true ∧
    gives (exec (.pinWrite 0 1 false) (withOdr 0xAB)) (fun t => t.regs[0].odr == 0xA9) = true := by decide

theorem test_pin_toggle : gives (exec (.pinToggle 0 7) (withOdr 0xAB)) (fun t => t.regs[0].odr == 0x2B) = true := by decide

theorem test_pin_toggle_unused : gives (exec (.pinToggle 0 8) (withOdr 0xAB)) (fun t =>
    t.refused == some .wrongDirection && t.regs[0].odr == 0xAB) = true := by decide

theorem test_pin_read : gives (exec (.pinRead 1 2) (at0 Config.reference 0 [0xFFFFFFFB])) (fun t =>
    t.hist == [.rd 1 .idr 0xFFFFFFFB, .resp (.bit false)]) = true := by decide

theorem test_pin_read_output_pin : gives (exec (.pinRead 0 0) State.reset) (fun t =>
    t.refused == some .wrongDirection) = true := by decide

/-- `pin.write 0, 9, 1` with W = 8. -/
theorem test_pin_write_bad_bit : gives (exec (.pinWrite 0 9 true) (State.resetOf cfg8)) (fun t =>
    t.refused == some .badBit) = true := by decide

theorem test_ed_poll_rise : gives (exec (.edPoll true) State.reset) (fun t =>
    t.hist == [.resp (.bit true)] && t.prev) = true := by decide

theorem test_ed_poll_sequence : gives (execAll ([false, false, true, true, true, false, false, true, false, true].map .edPoll)
    State.reset) (fun t => t.prev && t.hist ==
      [false, false, true, false, false, false, false, true, false, true].map (fun b => .resp (.bit b))) = true := by decide

/-- Rotate, 0x80 Forward wraps to 0x01 (44_pattern_engine.md R163). -/
theorem test_pe_step_wraps : gives (exec .peStep (pattern Config.reference 0x80 .forward)) (fun t =>
    t.mask == 0x01 && t.hist == [.resp (.mask 0x01)]) = true := by decide

/-- Bounce, 0x81 Forward off the reference trajectory loses bit 7 (90_conflicts.md C3). -/
theorem test_pe_step_bounce_loses : gives (exec .peStep (pattern bounceCfg 0x81 .forward)) (fun t =>
    t.mask == 0x02 && t.dir == .forward) = true := by decide

theorem test_pe_flip_then_step : gives (execAll [.peFlip, .peStep] (pattern Config.reference 0x10 .forward)) (fun t =>
    t.mask == 0x08 && t.dir == .reverse) = true := by decide

theorem test_pe_flip_bounce : gives (exec .peFlip (State.resetOf bounceCfg)) (fun t =>
    t.refused == some .flipInBounce) = true := by decide

/-- The example of 45_control_loop.md R190. -/
theorem test_tick : gives (exec .tick { at0 Config.reference 0xA500 [1] with mask := 0x01 }) (fun t =>
    t.regs[0].odr == 0xA580 && t.busy && t.prev && t.dir == .reverse && t.hist.length == 4) = true := by decide

/-- The second tick of program P5: active-low, shifted span, and the flip before the step. -/
theorem test_tick_p5 : gives (exec .tick { at0 p5Cfg 0x83F0 [0] with mask := 0x83, dir := .reverse }) (fun t =>
    t.regs[0].odr == 0x07F0 && t.mask == 0x07 && t.dir == .forward && t.prev) = true := by decide

/-- Program P6: after a refusal the block has no step. -/
theorem test_stuck : isStuck (step ((State.reset.refuse .readOnlyRegister).withFetchWord 16 0xA000)) = true := by decide

/-- A command presented during the delay holds, and the step is DelayEnd (60_exceptions.md R213). -/
theorem test_hold : gives (step { presented ⟨0xA000, 0⟩ with busy := true }) (fun t =>
    !t.busy && t.mask == 0x07 && t.issuer.queue.length == 1 && t.hist == [.delayEnd]) = true := by decide

/-- The first pass of program P1 through the issuer and the step. -/
theorem test_loop_first_pass : gives (Sys2Proof.core.run 2
    ({ at0 bounceCfg 0 [0] with issuer := Issuer.loop } : State)) (fun t =>
      State.hist t == [.rd 1 .idr 0, .rd 0 .odr 0, .wr 0 .odr 0x0E, .delayStart 0, .delayEnd]) = true := by decide

/-- A table word placed at the port is the first command after reset. -/
theorem test_first_step_runs_the_placed_word : gives (step (State.reset.withFetchWord 16 0xA000)) (fun t =>
    t.mask == 0x0E) = true := by decide

/-- 70_reset_and_hazards.md R241, one configuration for each check it can fail. -/
theorem test_config_checks : Config.reference.check = none ∧ bounceCfg.check = none ∧ cfg8.check = none ∧ p5Cfg.check = none ∧
    (∀ c ∈ ([{ Config.reference with w := 24 }, { Config.reference with a := 16 }, { Config.reference with nports := 0 },
        { Config.reference with nports := 5 }, { Config.reference with outPort := 2 }, { Config.reference with inPort := 3 },
        { Config.reference with patternLsb := 25 }, { Config.reference with buttonBit := 32 },
        { Config.reference with patternLsb := 1 }, { Config.reference with buttonBit := 1 },
        { Config.reference with offOdr := 0xD }, { Config.reference with offOdr := 0x8 }] : List Config),
      c.check = some .invalidConfig) ∧
    { Config.reference with secondMaster := true }.check = some .secondAgent := by decide

/-- The byte view: little-endian, nothing at IDR and outside the block (20_memory.md R50, R53). -/
theorem test_bytes : (withOdr 0x12345678).readByte 0x0C = some 0x78 ∧ (withOdr 0x12345678).readByte 0x0F = some 0x12 ∧
    (withOdr 0x12345678).readByte 0x08 = none ∧ (withOdr 0x12345678).readByte 0x20 = none := by decide

/-! ### Witnesses: states and operands that meet each statement's hypotheses -/

theorem wit_DecodeOfEncodeIsTheInstruction : (Instr.rpWrite 3 .odr 0xFF).wf 8 = true ∧
    (Instr.rpToggle 3 .odr 0xFFFFFFFF).wf 32 = true ∧ Instr.tick.wf 8 = true := by decide

theorem wit_AcceptedWordIsTheEncoding : decode 8 ⟨0x2300, 0x1AA⟩ = .command (.rpWrite 0 .odr 0xAA) := by decide

theorem wit_DecoderAgreesWithTheOpcodeTable : opRows.length = 12 ∧ ⟨"TICK", 0xC000, 0xFFFF, false⟩ ∈ opRows ∧
    OpRow.accepts ⟨"TICK", 0xC000, 0xFFFF, false⟩ 32 ⟨0xC000, 0⟩ = true := by decide

theorem wit_ReservedOpcodesAreRefused :
    (∀ cmd ∈ ([⟨0x0000, 0⟩, ⟨0xDFFF, 0⟩, ⟨0xE000, 0⟩, ⟨0xFFFF, 0⟩] : List Command),
      (presented cmd).Ready ∧ (presented cmd).takeCommand = some (cmd, State.reset)) ∧
    fieldOp 0x0000 = 0x0 ∧ fieldOp 0xDFFF = 0xD ∧ fieldOp 0xE000 = 0xE ∧ fieldOp 0xFFFF = 0xF := by decide

/-- One command for each way a field or the operand word is nonzero. -/
theorem wit_NonzeroReservedFieldsAreRefused :
    (∀ cmd ∈ ([⟨0x1302, 0⟩, ⟨0xC004, 0⟩, ⟨0x1308, 0⟩, ⟨0x5301, 0⟩, ⟨0x6100, 0⟩, ⟨0x7100, 0⟩, ⟨0x8001, 0⟩, ⟨0x9008, 0⟩,
        ⟨0xA001, 0⟩, ⟨0xC001, 0⟩, ⟨0x1300, 1⟩, ⟨0xC000, 0x80000000⟩] : List Command),
      (presented cmd).Ready ∧ (presented cmd).takeCommand = some (cmd, State.reset) ∧
      1 ≤ (fieldOp cmd.h).toNat ∧ (fieldOp cmd.h).toNat ≤ 12) ∧
    (0x1302 : Header).extractLsb' 1 2 ≠ 0 ∧ (0x1308 : Header).extractLsb' 3 5 ≠ 0 ∧ (0x5301 : Header).getLsbD 0 = true ∧
    (0x6100 : Header).extractLsb' 8 2 ≠ 0 ∧ (0x7100 : Header).extractLsb' 8 2 ≠ 0 ∧ (0x8001 : Header).getLsbD 0 = true ∧
    (0x9008 : Header).extractLsb' 3 9 ≠ 0 ∧ (0xA001 : Header).getLsbD 0 = true ∧ truncW 32 0x80000000 ≠ 0 := by decide

theorem wit_AtMostOneRowMatches : ⟨"TICK", 0xC000, 0xFFFF, false⟩ ∈ opRows ∧ (0xC000 : Header) &&& 0xFFFF = 0xC000 := by decide

theorem wit_SerialFormGivesTheCommandBack : Word.fits 8 0xFF = true ∧ Word.fits 16 0xFFFF = true ∧
    Word.fits 32 0xFFFFFFFF = true := by decide

theorem wit_ResetSetsEveryField : ∀ p : Port, p5Cfg.hasPort p = true →
    Word.fits p5Cfg.w p5Cfg.clken0[p] = true ∧ Word.fits p5Cfg.w p5Cfg.mode0[p] = true ∧
    Word.fits p5Cfg.w p5Cfg.odr0[p] = true := by decide

theorem wit_ConfigurationChecks : Config.valid { Config.reference with w := 24, secondMaster := true } = false ∧
    Config.valid { Config.reference with secondMaster := true } = true ∧ Config.valid cfg8 = true := by decide

theorem wit_RefusedConfigurationNeverSteps : Config.check { Config.reference with w := 24 } ≠ none ∧
    Config.check { Config.reference with secondMaster := true } ≠ none := by decide

theorem wit_EveryStepKeepsTheInvariant : (State.reset.withFetchWord 16 0xC000).Inv ∧
    ∃ t, step (State.reset.withFetchWord 16 0xC000) = .next t := ⟨by decide, _, rfl⟩

/-- A state whose history holds a write and the read after it. -/
def readBack : State := { withOdr 0xAA with hist := [.wr 0 .odr 0xAA], issuer := Issuer.loop }

theorem wit_EveryStepKeepsTheHistoryCoherent : readBack.Inv ∧ readBack.HistoryCoherent ∧ ∃ t, step readBack = .next t := by
  refine ⟨by decide, ⟨by decide, ?_, ?_⟩, _, rfl⟩
  · intro before after p r v h
    have : Event.rd p r v ∈ readBack.hist := by rw [h]; simp
    simp [readBack] at this
  · intro p r v h
    simp only [readBack, List.mem_singleton, Event.wr.injEq] at h
    obtain ⟨_, rfl, rfl⟩ := h
    exact ⟨rfl, by decide⟩

theorem wit_HistoryOnlyGrowsAndSetupIsNeverWritten : ∃ t, step (State.reset.withFetchWord 16 0xC000) = .next t := ⟨_, rfl⟩

theorem wit_OnlyARefusedBlockHasNoStep : State.reset.refused = none ∧ (State.reset.refuse .badPort).refused ≠ none := by decide

theorem wit_StepRunsTheDecodedCommand : (presented ⟨0xC000, 0⟩).Ready ∧
    (presented ⟨0xC000, 0⟩).issuer.take = some (⟨0xC000, 0⟩, { queue := [], repeats := none }) ∧
    decode (presented ⟨0xC000, 0⟩).cfg.w ⟨0xC000, 0⟩ = .command .tick := by decide

theorem wit_PlacedCommandRunsNext : State.reset.Ready ∧
    decode State.reset.cfg.w (tableCommand 48 0xAA2300) = .command (.rpWrite 0 .odr 0xAA) := by decide

theorem wit_CommandsHoldUntilDelayEnd : ({ presented ⟨0xA000, 0⟩ with busy := true } : State).refused = none ∧
    ({ presented ⟨0xA000, 0⟩ with busy := true } : State).busy = true ∧
    ({ presented ⟨0xA000, 0⟩ with busy := true } : State).delayEnd.takeCommand ≠ none ∧
    decode 32 ⟨0xA000, 0⟩ = .command .peStep ∧ decode 32 ⟨0xD000, 0⟩ = .refuse .reservedOpcode := by decide

theorem wit_RefusalSetsTheMarkAndNothingElse : (presented ⟨0x1B00, 0⟩).refused = none ∧
    ∃ t, step (presented ⟨0x1B00, 0⟩) = .next t ∧ t.refused = some .badPort := ⟨rfl, _, rfl, rfl⟩

/-- Lines 3 and 4, told by the fields: `0xF002:1` meets both, `0x1F02` meets line 4 (and line 5), TICK meets neither. -/
theorem wit_OutcomeFollowsThePriorityOrder_fields :
    Header.HasReservedOpcode 0xF002 ∧ Command.HasNonzeroReservedField 32 ⟨0xF002, 1⟩ ∧
    ¬ Header.HasReservedOpcode 0x1F02 ∧ Command.HasNonzeroReservedField 32 ⟨0x1F02, 0⟩ ∧
    ¬ Header.HasReservedOpcode 0xC000 ∧ ¬ Command.HasNonzeroReservedField 32 ⟨0xC000, 0⟩ := by
  refine ⟨?_, ?_, ?_, ?_, ?_, ?_⟩ <;> decide

/-- One command for each line of the priority order, taken by a ready block, by a busy one and by a refused one. -/
theorem wit_OutcomeFollowsThePriorityOrder :
    (∀ cmd ∈ ([⟨0xF002, 1⟩, ⟨0x1F02, 0⟩, ⟨0xC000, 0⟩] : List Command),
      (presented cmd).Ready ∧ (presented cmd).takeCommand = some (cmd, State.reset)) ∧
    (Instr.pinWrite 2 31 true).firstRefusal cfg8 = some .badPort ∧
    (Instr.pinWrite 1 8 true).firstRefusal cfg8 = some .badBit ∧
    (Instr.rpSet 0 .idr 0).firstRefusal cfg8 = some .readOnlyRegister ∧
    (Instr.pinWrite 1 7 true).firstRefusal cfg8 = some .wrongDirection ∧
    Instr.peFlip.firstRefusal bounceCfg = some .flipInBounce ∧ Instr.tick.firstRefusal bounceCfg = none ∧
    ({ presented ⟨0xC000, 0⟩ with busy := true } : State).takeCommand ≠ none ∧
    ((presented ⟨0xC000, 0⟩).refuse .badPort).takeCommand ≠ none := by decide

/-- Each kind of hidden state does change. -/
theorem wit_OnlyTheNamedCommandsWriteEachState :
    gives (exec (.edPoll true) State.reset) (fun t => decide (t.prev ≠ false)) = true ∧
    gives (exec .peStep State.reset) (fun t => decide (t.mask ≠ State.reset.mask)) = true ∧
    gives (exec .peFlip State.reset) (fun t => decide (t.dir ≠ State.reset.dir)) = true ∧
    gives (exec .tick (at0 Config.reference 0 [0])) (fun t => decide (t.busy ≠ false)) = true ∧
    gives (exec .peStep (State.reset.refuse .badPort)) (fun _ => true) = true := by decide

/-- The last port of a two-port block and the first beyond it. -/
theorem wit_RpReadRespondsWithTheRegister : fieldOp 0x13FF = 0x1 ∧ (1 : Port).val < State.reset.cfg.nports ∧
    State.reset.cfg.nports ≤ (2 : Port).val := by decide

theorem wit_RpWriteReplacesTheWord : fieldOp 0x2300 = 0x2 ∧ (1 : Port).val < State.reset.cfg.nports ∧
    Word.fits State.reset.cfg.w 0xFFFFFFFF = true ∧ State.reset.cfg.nports ≤ (2 : Port).val ∧ Reg.idr ≠ .odr := by decide

theorem wit_RpSetSetsTheMaskedBits : fieldOp 0x3300 = 0x3 ∧ (1 : Port).val < State.reset.cfg.nports ∧
    Memory.wf State.reset.cfg State.reset.regs = true ∧ Word.fits State.reset.cfg.w 0xFFFFFFFF = true ∧
    State.reset.cfg.nports ≤ (2 : Port).val ∧ Reg.mode ≠ .odr := by decide

theorem wit_RpClearClearsTheMaskedBits : fieldOp 0x4301 = 0x4 ∧ (1 : Port).val < (State.resetOf cfg8).cfg.nports ∧
    Memory.wf (State.resetOf cfg8).cfg (State.resetOf cfg8).regs = true ∧ Word.fits (State.resetOf cfg8).cfg.w 0xFF = true ∧
    (State.resetOf cfg8).cfg.nports ≤ (2 : Port).val ∧ Reg.clken ≠ .odr := by decide

theorem wit_RpToggleFlipsTheMaskedBits : fieldOp 0x5300 = 0x5 ∧ (0 : Port).val < (State.resetOf p5Cfg).cfg.nports ∧
    Memory.wf (State.resetOf p5Cfg).cfg (State.resetOf p5Cfg).regs = true ∧
    Word.fits (State.resetOf p5Cfg).cfg.w 0xFFFFFFFF = true ∧ (State.resetOf p5Cfg).cfg.nports ≤ (1 : Port).val ∧
    Reg.idr ≠ .odr := by decide

theorem wit_ReadAfterWriteRespondsWithTheValueWritten : (1 : Port).val < (State.resetOf cfg8).cfg.nports ∧
    Word.fits (State.resetOf cfg8).cfg.w 0xFF = true := by decide

theorem wit_WriteStoresTheBytesAtTheRegisterAddress : State.reset.cfg.check = none ∧ (1 : Port).val < State.reset.cfg.nports ∧
    Word.fits State.reset.cfg.w 0xFFFFFFFF = true ∧ 3 < State.reset.cfg.w / 8 ∧
    (0x1B : Nat) < (State.reset.cfg.base[(1 : Port)] + State.reset.cfg.offOdr).toNat ∧
    (State.reset.cfg.base[(1 : Port)] + State.reset.cfg.offOdr).toNat + State.reset.cfg.w / 8 ≤ 0x20 := by decide

/-- An output pin at the edge of its range, an absent port, a bit at W, and a pin that is no output. -/
theorem wit_PinWriteSetsExactlyItsBit : fieldOp 0x6001 = 0x6 ∧ (0 : Port).val < (State.resetOf cfg8).cfg.nports ∧
    (7 : BitIndex).val < (State.resetOf cfg8).cfg.w ∧ (State.resetOf cfg8).cfg.pinDir 0 (7 : BitIndex).val = .output ∧
    Memory.wf (State.resetOf cfg8).cfg (State.resetOf cfg8).regs = true ∧ (State.resetOf cfg8).cfg.nports ≤ (2 : Port).val ∧
    (State.resetOf cfg8).cfg.w ≤ (8 : BitIndex).val ∧ (State.resetOf cfg8).cfg.pinDir 1 (7 : BitIndex).val ≠ .output := by decide

theorem wit_PinToggleFlipsExactlyItsBit : fieldOp 0x7038 = 0x7 ∧ (0 : Port).val < (State.resetOf cfg8).cfg.nports ∧
    (0 : BitIndex).val < (State.resetOf cfg8).cfg.w ∧ (State.resetOf cfg8).cfg.pinDir 0 (0 : BitIndex).val = .output ∧
    Memory.wf (State.resetOf cfg8).cfg (State.resetOf cfg8).regs = true ∧ (State.resetOf cfg8).cfg.nports ≤ (2 : Port).val ∧
    (State.resetOf cfg8).cfg.w ≤ (8 : BitIndex).val ∧ (State.resetOf cfg8).cfg.pinDir 1 (0 : BitIndex).val ≠ .output := by decide

theorem wit_PinReadRespondsWithItsBitOfTheDraw : fieldOp 0x8410 = 0x8 ∧ (1 : Port).val < (State.resetOf cfg8).cfg.nports ∧
    (2 : BitIndex).val < (State.resetOf cfg8).cfg.w ∧ (State.resetOf cfg8).cfg.pinDir 1 (2 : BitIndex).val = .input ∧
    (State.resetOf cfg8).cfg.nports ≤ (2 : Port).val ∧ (State.resetOf cfg8).cfg.w ≤ (8 : BitIndex).val ∧
    (State.resetOf cfg8).cfg.pinDir 0 (7 : BitIndex).val ≠ .input := by decide

theorem wit_PinCommandsPreserveOtherBits : (0 : Port).val < State.reset.cfg.nports ∧
    State.reset.cfg.pinDir 0 (7 : BitIndex).val = .output ∧ Memory.wf State.reset.cfg State.reset.regs = true ∧
    ∃ t, exec (.pinToggle 0 7) State.reset = .next t := ⟨by decide, by decide, by decide, _, rfl⟩

theorem wit_EightPinWritesEqualOnePatternWrite : State.reset.cfg.check = none ∧
    Memory.wf State.reset.cfg State.reset.regs = true ∧
    ([7, 0, 6, 1, 5, 2, 4, 3] : List (Fin 8)).Perm [0, 1, 2, 3, 4, 5, 6, 7] := by decide

theorem wit_EdPollReportsRisingEdges : fieldOp 0x9001 = 0x9 := by decide

/-- Both variants and each case of the Bounce step. -/
theorem wit_PeStepMovesThePattern : fieldOp 0xA000 = 0xA ∧ State.reset.cfg.variant = .rotate ∧ bounceCfg.variant = .bounce ∧
    (pattern bounceCfg 0xE0 .forward).mask = bounceCfg.top ∧ (pattern bounceCfg 0x07 .reverse).mask = bounceCfg.bottom ∧
    (pattern bounceCfg 0x07 .forward).mask ≠ bounceCfg.top ∧ (pattern bounceCfg 0xE0 .reverse).mask ≠ bounceCfg.bottom := by
  decide

theorem wit_PeFlipFlipsTheDirectionInRotate : fieldOp 0xB000 = 0xB ∧ State.reset.cfg.variant = .rotate ∧
    (State.resetOf bounceCfg).cfg.variant = .bounce := by decide

theorem wit_EightRotateStepsReturnTheMask : State.reset.cfg.variant = .rotate := by decide

theorem wit_BouncePreservesPopulationCountExactlyWhen : bounceCfg.variant = .bounce ∧ bounceCfg.top = 0xE0 ∧
    bounceCfg.bottom = 0x07 ∧ (pattern bounceCfg 0xE0 .forward).mask ∈
      ([0x07, 0x0E, 0x1C, 0x38, 0x70, 0xE0] : List Byte) ∧
    (pattern bounceCfg 0xE0 .forward).mask = bounceCfg.top ∧ (pattern bounceCfg 0x07 .forward).mask ≠ bounceCfg.top ∧
    (pattern bounceCfg 0x07 .reverse).mask = bounceCfg.bottom ∧ (pattern bounceCfg 0x0E .reverse).mask ≠ bounceCfg.bottom := by
  decide

theorem wit_ReferenceBounceHasPeriodTen : (State.resetOf bounceCfg).cfg.variant = .bounce ∧
    (State.resetOf bounceCfg).cfg.top = 0xE0 ∧ (State.resetOf bounceCfg).cfg.bottom = 0x07 ∧
    (State.resetOf bounceCfg).mask = 0x07 ∧ (State.resetOf bounceCfg).dir = .forward := by decide

theorem wit_DirectionChangesOnlyForItsVariantsReason :
    gives (exec .tick (at0 Config.reference 0 [1])) (fun t => decide (t.dir ≠ .forward)) = true ∧
    gives (exec .peStep (pattern bounceCfg 0xE0 .forward)) (fun t => decide (t.dir ≠ .forward)) = true ∧
    gives (exec .tick { at0 bounceCfg 0 [0] with mask := 0x07, dir := .reverse }) (fun t => decide (t.dir ≠ .reverse)) = true := by
  decide

theorem wit_PatternEngineDependsOnItsOwnStateOnly : (withOdr 0xAA).mask = State.reset.mask ∧
    (withOdr 0xAA).dir = State.reset.dir ∧ (withOdr 0xAA) ≠ State.reset ∧
    gives (execAll [.peFlip, .peStep] (withOdr 0xAA)) (fun _ => true) = true ∧
    gives (execAll [.peFlip, .peStep] State.reset) (fun _ => true) = true := by decide

/-- A valid block in canonical form, in each variant, with the button pressed for the first time. -/
theorem wit_TickRunsOnePassOfTheLoop : fieldOp 0xC000 = 0xC ∧ State.reset.cfg.check = none ∧ Memory.wf State.reset.cfg State.reset.regs = true ∧
    (State.resetOf p5Cfg).cfg.check = none ∧ Memory.wf p5Cfg (State.resetOf p5Cfg).regs = true ∧
    State.reset.prev = false ∧ State.reset.cfg.variant = .rotate ∧
    ((at0 Config.reference 0 [1]).env.next.getLsbD State.reset.cfg.buttonBit != State.reset.cfg.inputInvert) = true := by decide

theorem wit_PatternMergeFillsTheSpanOnly : Config.check { Config.reference with
      patternLsb := 24, pindir := #v[pinsOf [24, 25, 26, 27, 28, 29, 30, 31] [], pinsOf [] [0], pinsOf [] [], pinsOf [] []] } = none ∧
    Word.fits 32 0xFFFFFFFF = true := by decide

/-- The two blocks do take different samples. -/
theorem wit_BounceIgnoresTheButton : (at0 bounceCfg 0 [0]).cfg.variant = .bounce ∧
    sample bounceCfg (truncW bounceCfg.w (at0 bounceCfg 0 [0]).env.next) = false ∧
    sample bounceCfg (truncW bounceCfg.w (at0 bounceCfg 0 [1]).env.next) = true := by decide

theorem wit_FirstTickShowsTheStepOfTheInitialMask : Config.reference.check = none ∧ bounceCfg.check = none ∧
    p5Cfg.check = none := by decide

theorem wit_ReferenceLoopAlternatesTickAndDelayEnd : (State.reset.withIssuer Issuer.loop).Ready ∧
    (State.reset.withIssuer Issuer.loop).issuer = Issuer.loop := by decide

/-- The state after the first tick of program P1 and its DelayEnd. -/
theorem wit_ReferenceBounceLoopIsPeriodic :
    ({ at0 bounceCfg 0x0E [] with mask := 0x0E, issuer := Issuer.loop } : State).Ready ∧
    ({ at0 bounceCfg 0x0E [] with mask := 0x0E, issuer := Issuer.loop } : State).issuer = Issuer.loop ∧
    (at0 bounceCfg 0x0E []).cfg.check = none ∧ Memory.wf (at0 bounceCfg 0x0E []).cfg (at0 bounceCfg 0x0E []).regs = true ∧
    (at0 bounceCfg 0x0E []).cfg.variant = .bounce ∧ (at0 bounceCfg 0x0E []).cfg.top = 0xE0 ∧
    (at0 bounceCfg 0x0E []).cfg.bottom = 0x07 ∧ (at0 bounceCfg 0x0E []).dir = .forward := by decide

end Sys2Proof.Tests
end

/-! ### The history grows and Setup's values stay -/

namespace Sys2Proof.Machine

/-- Settles O15, by the cases of one step: DelayEnd appends its own event, waiting and a refusal append nothing, and a command's rule
appends what it records; none of them writes the configuration, CLKEN or MODE (10_state.md R21, R27, R30). -/
theorem historyOnlyGrowsAndSetupIsNeverWritten : Obligations.HistoryOnlyGrowsAndSetupIsNeverWritten := by
  intro s t h
  obtain ⟨-, ⟨-, rfl⟩ | ⟨-, rfl | ⟨iss, ⟨r, rfl⟩ | ⟨i, -, rfl⟩⟩⟩⟩ := step_cases h
  · exact ⟨⟨[.delayEnd], s.delayEnd_hist⟩, s.delayEnd_cfg, fun _ => ⟨rfl, rfl⟩⟩
  · exact ⟨⟨[], (List.append_nil _).symm⟩, rfl, fun _ => ⟨rfl, rfl⟩⟩
  · exact ⟨⟨[], (List.append_nil _).symm⟩, rfl, fun _ => ⟨rfl, rfl⟩⟩
  · exact ⟨runOf_hist i _, runOf_cfg i _, runOf_setup i _⟩

end Sys2Proof.Machine

/-! ### What one command does to the previous sample, the mask, the direction and the delay bit -/

namespace Sys2Proof.Machine

/-- Only ED_POLL and TICK write the previous sample (10_state.md R24). -/
theorem runOf_prev_cases (i : Instr) (s : State) :
    (runOf i s).prev = s.prev ∨ (∃ x, i = .edPoll x) ∨ i = .tick := by
  cases i
  case edPoll x => exact .inr (.inl ⟨x, rfl⟩)
  case tick => exact .inr (.inr rfl)
  all_goals exact .inl (by simp [runOf])

/-- Only PE_STEP and TICK write the mask, and what they write is a step of the pattern in some direction (10_state.md R25). -/
theorem runOf_mask_cases (i : Instr) (s : State) :
    (runOf i s).mask = s.mask ∨
    ((i = .peStep ∨ i = .tick) ∧ ∃ d, (runOf i s).mask = (patternNext s.cfg s.mask d).1) := by
  cases i
  case peStep => exact .inr ⟨.inl rfl, s.dir, by simp [runOf]⟩
  case tick => exact .inr ⟨.inr rfl, tickDir s, runOf_tick_mask s⟩
  all_goals exact .inl (by simp [runOf])

/-- Only PE_STEP, PE_FLIP and TICK write the direction (10_state.md R26). -/
theorem runOf_dir_cases (i : Instr) (s : State) :
    (runOf i s).dir = s.dir ∨ i = .peStep ∨ i = .peFlip ∨ i = .tick := by
  cases i
  case peStep => exact .inr (.inl rfl)
  case peFlip => exact .inr (.inr (.inl rfl))
  case tick => exact .inr (.inr (.inr rfl))
  all_goals exact .inl (by simp [runOf])

/-! ### The delay a history ends in -/

@[simp] theorem delayOpen_nil : delayOpen [] = false := rfl

@[simp] theorem delayOpen_append_rd (h es : List Event) (p : Port) (r : Reg) (v : Word) :
    delayOpen (h ++ .rd p r v :: es) = delayOpen (h ++ es) := by simp [delayOpen]

@[simp] theorem delayOpen_append_wr (h es : List Event) (p : Port) (r : Reg) (v : Word) :
    delayOpen (h ++ .wr p r v :: es) = delayOpen (h ++ es) := by simp [delayOpen]

@[simp] theorem delayOpen_append_resp (h es : List Event) (v : Response) :
    delayOpen (h ++ .resp v :: es) = delayOpen (h ++ es) := by simp [delayOpen]

@[simp] theorem delayOpen_append_delayStart (h : List Event) (d : Nat) : delayOpen (h ++ [.delayStart d]) = true := by
  simp [delayOpen]

@[simp] theorem delayOpen_append_delayEnd (h : List Event) : delayOpen (h ++ [.delayEnd]) = false := by
  simp [delayOpen]

/-- TICK sets the delay bit and opens a delay in the history; every other command leaves both as they are (10_state.md R28,
45_control_loop.md R193). -/
theorem runOf_delay_cases (i : Instr) (s : State) :
    ((runOf i s).busy = s.busy ∧ delayOpen (runOf i s).hist = delayOpen s.hist) ∨
    (i = .tick ∧ (runOf i s).busy = true ∧ delayOpen (runOf i s).hist = true) := by
  cases i
  case tick => exact .inr ⟨rfl, by simp [runOf], by simp [runOf]⟩
  all_goals exact .inl ⟨by simp [runOf], by simp [runOf]⟩

/-- Settles O22: a refusal writes none of the four and sets the mark; a rule's run writes each only under the commands named. -/
theorem onlyTheNamedCommandsWriteEachState : Obligations.OnlyTheNamedCommandsWriteEachState := by
  intro i s t h
  obtain ⟨r, -, rfl⟩ | ⟨-, rfl⟩ := exec_cases h
  · exact ⟨absurd rfl, absurd rfl, absurd rfl, absurd rfl, fun _ => Option.some_ne_none r⟩
  · refine ⟨(runOf_prev_cases i s).resolve_left, ?mask, (runOf_dir_cases i s).resolve_left, ?busy, ?mark⟩
    case mask => exact fun hne => ((runOf_mask_cases i s).resolve_left hne).1
    case busy =>
      intro hne
      obtain ⟨hsame, -⟩ | ⟨htick, hset, -⟩ := runOf_delay_cases i s
      · exact absurd hsame hne
      · exact ⟨htick, hset⟩
    case mark => rw [runOf_refused]; exact id

/-! ### The number of lit LEDs (44_pattern_engine.md R165) -/

/-- A rotation keeps the number of lit LEDs, in either direction. -/
theorem popcount8_rotateNext (m : Byte) (d : Dir) : popcount8 (rotateNext m d).1 = popcount8 m := by
  cases d
  case forward => revert m; decide
  case reverse => revert m; decide

/-- In the Rotate variant every command keeps the number of lit LEDs. -/
theorem popcount8_runOf_mask {s : State} (hv : s.cfg.variant = .rotate) (i : Instr) :
    popcount8 (runOf i s).mask = popcount8 s.mask := by
  obtain h | ⟨-, d, h⟩ := runOf_mask_cases i s
  · rw [h]
  · simp only [h, patternNext, hv, popcount8_rotateNext]

/-! ### The invariant holds at reset, and each kind of step keeps it -/

theorem resetOf_inv (c : Config) : (State.resetOf c).Inv :=
  ⟨id, resetOf_memory_wf c, fun p => by rw [resetOf_get]; exact ⟨rfl, rfl⟩, rfl, fun _ => rfl⟩

/-- The history is empty after reset, so it has no access to explain. -/
theorem resetOf_historyCoherent (c : Config) : (State.resetOf c).HistoryCoherent := by
  refine ⟨fun p => ?odr, fun before after p r v h => ?read, fun p r v h => ?write⟩
  case odr => rw [resetOf_get]; rfl
  case read => exact absurd h.symm (by simp [State.resetOf])
  case write => exact absurd h List.not_mem_nil

/-- Settles O12, from the reset state of every configuration. -/
theorem resetSatisfiesTheInvariants : Obligations.ResetSatisfiesTheInvariants :=
  ⟨fun c => ⟨resetOf_inv c, resetOf_historyCoherent c⟩, resetOf_inv _, resetOf_historyCoherent _⟩

theorem State.Inv.delayEnd {s : State} (hs : s.Inv) : s.delayEnd.Inv := by
  obtain ⟨hcfg, hmem, hsetup, -, hlit⟩ := hs
  exact ⟨hcfg, hmem, hsetup, (delayOpen_append_delayEnd s.hist).symm, hlit⟩

/-- The invariant does not speak of the issuer. -/
theorem State.Inv.withIssuer {s : State} (hs : s.Inv) (iss : Issuer) : (s.withIssuer iss).Inv := hs

/-- A refused block need not have a valid configuration, so setting the mark only weakens the invariant. -/
theorem State.Inv.refuse {s : State} (hs : s.Inv) (r : Reason) : (s.refuse r).Inv := by
  obtain ⟨-, hrest⟩ := hs
  exact ⟨fun h => absurd h (Option.some_ne_none r), hrest⟩

/-- A command whose checks have passed keeps the invariant of a block that is not refused. -/
theorem State.Inv.runOf {s : State} (hs : s.Inv) (hr : s.refused = none) {i : Instr}
    (hf : i.firstRefusal s.cfg = none) : (runOf i s).Inv := by
  obtain ⟨hcfg, hmem, hsetup, hbusy, hlit⟩ := hs
  simp only [State.Inv, runOf_cfg, runOf_refused]
  refine ⟨hcfg, runOf_memory_wf (hcfg hr) hf hmem, fun p => ?setup, ?delay, fun hv => ?lit⟩
  case setup =>
    obtain ⟨hclken, hmode⟩ := runOf_setup i s p
    rw [hclken, hmode]
    exact hsetup p
  case delay =>
    obtain ⟨hb, hh⟩ | ⟨-, hb, hh⟩ := runOf_delay_cases i s
    · rw [hb, hh, hbusy]
    · rw [hb, hh]
  case lit => rw [popcount8_runOf_mask hv, hlit hv]

/-- Settles O13, by the cases of one step: DelayEnd, waiting, a refusal, and the run of a command's rule. -/
theorem everyStepKeepsTheInvariant : Obligations.EveryStepKeepsTheInvariant := by
  intro s t hs h
  obtain ⟨hr, ⟨-, rfl⟩ | ⟨-, rfl | ⟨iss, ⟨r, rfl⟩ | ⟨i, hf, rfl⟩⟩⟩⟩ := step_cases h
  · exact hs.delayEnd
  · exact hs
  · exact (hs.withIssuer iss).refuse r
  · exact (hs.withIssuer iss).runOf hr hf

end Sys2Proof.Machine

/-! ### The history explains the registers (20_memory.md R57) -/

namespace Sys2Proof.Machine

/-- What 20_memory.md R57 says a recorded read returned, given the events before it. -/
def ReadExplained (c : Config) (before : List Event) (p : Port) (r : Reg) (v : Word) : Prop :=
  match r with
  | .clken => v = (launchRegs c p).clken
  | .mode => v = (launchRegs c p).mode
  | .idr => Word.fits c.w v = true
  | .odr => v = lastWrite p (launchRegs c p).odr before

/-- Coherence, with the model's case split over the register read under a name. -/
theorem historyCoherent_iff (s : State) :
    s.HistoryCoherent ↔
      (∀ p : Port, s.regs[p].odr = lastWrite p (launchRegs s.cfg p).odr s.hist) ∧
      (∀ before after p r v, s.hist = before ++ .rd p r v :: after → ReadExplained s.cfg before p r v) ∧
      (∀ p r v, .wr p r v ∈ s.hist → r = .odr ∧ Word.fits s.cfg.w v = true) :=
  Iff.rfl

theorem lastWrite_append (p : Port) (init : Word) (h es : List Event) :
    lastWrite p init (h ++ es) = lastWrite p (lastWrite p init h) es :=
  List.foldl_append

theorem lastWrite_wr_odr (p q : Port) (init x : Word) :
    lastWrite q init [.wr p .odr x] = if p = q then x else init := by
  simp [lastWrite]

namespace State.HistoryCoherent

/-- One more event keeps coherence when ODR follows it, a read in it is explained by the history so far, and a write in it is of a
W-bit word to ODR. -/
theorem append {s t : State} {e : Event} (hs : s.HistoryCoherent) (hcfg : t.cfg = s.cfg) (hhist : t.hist = s.hist ++ [e])
    (hodr : ∀ p : Port, t.regs[p].odr = lastWrite p s.regs[p].odr [e])
    (hread : ∀ p r v, e = .rd p r v → ReadExplained s.cfg s.hist p r v)
    (hwrite : ∀ p r v, e = .wr p r v → r = .odr ∧ Word.fits s.cfg.w v = true) : t.HistoryCoherent := by
  obtain ⟨sodr, sread, swrite⟩ := (historyCoherent_iff s).mp hs
  rw [historyCoherent_iff, hcfg, hhist]
  refine ⟨fun p => ?odr, fun before after p r v h => ?read, fun p r v h => ?write⟩
  case odr => rw [hodr, lastWrite_append, sodr]
  case read =>
    obtain rfl | ⟨rest, last, rfl⟩ := after.eq_nil_or_concat
    · obtain ⟨rfl, he⟩ := List.append_inj' h rfl
      exact hread p r v (List.singleton_inj.mp he)
    · rw [List.concat_eq_append, ← List.cons_append, ← List.append_assoc] at h
      exact sread before rest p r v (List.append_inj' h rfl).1
  case write =>
    obtain h | h := List.mem_append.mp h
    · exact swrite p r v h
    · exact hwrite p r v (List.mem_singleton.mp h).symm

/-! Events that are no access of a register -/

theorem respond {s : State} (hs : s.HistoryCoherent) (v : Response) : (s.respond v).HistoryCoherent :=
  hs.append rfl rfl (fun _ => rfl) nofun nofun

theorem delayStart {s : State} (hs : s.HistoryCoherent) : s.delayStart.HistoryCoherent :=
  hs.append rfl rfl (fun _ => rfl) nofun nofun

theorem delayEnd {s : State} (hs : s.HistoryCoherent) : s.delayEnd.HistoryCoherent :=
  hs.append rfl rfl (fun _ => rfl) nofun nofun

/-! Accesses of a register -/

/-- The word a register would return now is explained: IDR's by its width, ODR's by coherence, CLKEN's and MODE's by what Setup
left. -/
theorem readExplained {s : State} (hs : s.HistoryCoherent) (p : Port) (r : Reg)
    (hsetup : s.regs[p].clken = (launchRegs s.cfg p).clken ∧ s.regs[p].mode = (launchRegs s.cfg p).mode) :
    ReadExplained s.cfg s.hist p r (s.readValue p r) := by
  cases r
  case clken => exact hsetup.1
  case mode => exact hsetup.2
  case idr => exact truncW_fits _ _
  case odr => exact ((historyCoherent_iff s).mp hs).1 p

theorem afterRead {s : State} (hs : s.HistoryCoherent) {p : Port} {r : Reg}
    (hread : ReadExplained s.cfg s.hist p r (s.readValue p r)) : (s.afterRead p r).HistoryCoherent := by
  refine hs.append (s.afterRead_cfg p r) (s.afterRead_hist p r) (fun q => ?odr) (fun p' r' v' he => ?read) nofun
  case odr => rw [State.afterRead_regs]; rfl
  case read => cases he; exact hread

/-- A draw of IDR is explained by its width alone. -/
theorem afterRead_idr {s : State} (hs : s.HistoryCoherent) (p : Port) : (s.afterRead p .idr).HistoryCoherent :=
  hs.afterRead (truncW_fits _ _)

theorem afterRead_odr {s : State} (hs : s.HistoryCoherent) (p : Port) : (s.afterRead p .odr).HistoryCoherent :=
  hs.afterRead (((historyCoherent_iff s).mp hs).1 p)

theorem regWrite {s : State} (hs : s.HistoryCoherent) (p : Port) (v : Word) : (s.regWrite p v).HistoryCoherent := by
  refine hs.append rfl rfl (fun q => ?odr) nofun (fun p' r' v' he => ?write)
  case odr =>
    rw [lastWrite_wr_odr, State.regWrite_regs, Memory.get_set]
    by_cases h : q = p
    · rw [if_pos h, if_pos h.symm]
    · rw [if_neg h, if_neg (Ne.symm h)]
  case write => cases he; exact ⟨rfl, truncW_fits _ _⟩

/-- A read-modify-write is a read and then a write of ODR (20_memory.md R56). -/
theorem readModifyWrite {s : State} (hs : s.HistoryCoherent) (p : Port) (f : Word → Word) :
    (s.readModifyWrite p f).HistoryCoherent :=
  (hs.afterRead_odr p).regWrite p _

/-! Operations coherence does not see, for they touch neither the configuration nor the registers nor the history -/

theorem withIssuer {s : State} (hs : s.HistoryCoherent) (iss : Issuer) : (s.withIssuer iss).HistoryCoherent := hs

theorem refuse {s : State} (hs : s.HistoryCoherent) (r : Reason) : (s.refuse r).HistoryCoherent := hs

theorem setPrev {s : State} (hs : s.HistoryCoherent) (smp : Bool) : (s.setPrev smp).HistoryCoherent := hs

theorem stepPattern {s : State} (hs : s.HistoryCoherent) : s.stepPattern.HistoryCoherent := hs

theorem flip {s : State} (hs : s.HistoryCoherent) : s.flip.HistoryCoherent := hs

theorem pollAndFlip {s : State} (hs : s.HistoryCoherent) (smp : Bool) : (s.pollAndFlip smp).HistoryCoherent := by
  unfold State.pollAndFlip
  split
  · exact (hs.setPrev smp).flip
  · exact hs.setPrev smp

/-- Every command's rule keeps coherence, operation by operation; only RP_READ of CLKEN or MODE needs what Setup left. -/
theorem runOf {s : State} (hs : s.HistoryCoherent)
    (hsetup : ∀ p : Port, s.regs[p].clken = (launchRegs s.cfg p).clken ∧ s.regs[p].mode = (launchRegs s.cfg p).mode)
    (i : Instr) : (runOf i s).HistoryCoherent := by
  cases i
  case rpRead p r => exact (hs.afterRead (hs.readExplained p r (hsetup p))).respond _
  case rpWrite p _ word => exact hs.regWrite p word
  case pinRead p b => exact (hs.afterRead_idr p).respond _
  case edPoll smp => exact (hs.setPrev smp).respond _
  case peStep => exact hs.stepPattern.respond _
  case peFlip => exact hs.flip
  case tick => exact (((hs.afterRead_idr _).pollAndFlip _).stepPattern.readModifyWrite _ _).delayStart
  case rpSet p _ _ | rpClear p _ _ | rpToggle p _ _ | pinWrite p _ _ | pinToggle p _ => exact hs.readModifyWrite p _

end State.HistoryCoherent

/-- Settles O14, by the cases of one step: DelayEnd, waiting, a refusal, and the run of a command's rule. -/
theorem everyStepKeepsTheHistoryCoherent : Obligations.EveryStepKeepsTheHistoryCoherent := by
  intro s t hinv hs h
  obtain ⟨-, -, hsetup, -⟩ := hinv
  obtain ⟨-, ⟨-, rfl⟩ | ⟨-, rfl | ⟨iss, ⟨r, rfl⟩ | ⟨i, -, rfl⟩⟩⟩⟩ := step_cases h
  · exact hs.delayEnd
  · exact hs
  · exact (hs.withIssuer iss).refuse r
  · exact (hs.withIssuer iss).runOf hsetup i

end Sys2Proof.Machine

/-! ### Read after write, and the bytes a write stores -/

namespace Sys2Proof.Machine

/-- RP_READ is refused for an absent port only (41_register_port.md R100). -/
theorem firstRefusal_rpRead (c : Config) (p : Port) (r : Reg) :
    Instr.firstRefusal c (.rpRead p r) = if c.nports ≤ p.val then some .badPort else none := by
  simp [Instr.firstRefusal, Instr.usedPort, Instr.usedBit, Instr.writtenReg, Instr.neededDir]

/-- RP_WRITE is refused for an absent port, then for a register that is not ODR (41_register_port.md R101, R105). -/
theorem firstRefusal_rpWrite (c : Config) (p : Port) (r : Reg) (word : Word) :
    Instr.firstRefusal c (.rpWrite p r word) =
      if c.nports ≤ p.val then some .badPort else if r = .odr then none else some .readOnlyRegister := by
  simp [Instr.firstRefusal, Instr.usedPort, Instr.usedBit, Instr.writtenReg, Instr.neededDir]

theorem exec_rpRead_of_present {s : State} {p : Port} (hp : p.val < s.cfg.nports) (r : Reg) :
    exec (.rpRead p r) s = .next (runOf (.rpRead p r) s) :=
  exec_of_admitted (by rw [firstRefusal_rpRead, if_neg (Nat.not_le.mpr hp)])

theorem exec_rpWrite_odr_of_present {s : State} {p : Port} (hp : p.val < s.cfg.nports) (word : Word) :
    exec (.rpWrite p .odr word) s = .next (s.regWrite p word) :=
  exec_of_admitted (by rw [firstRefusal_rpWrite, if_neg (Nat.not_le.mpr hp), if_pos rfl])

/-- A read of ODR after a write of a W-bit word to it returns that word (20_memory.md R57). -/
theorem readValue_odr_regWrite {s : State} {word : Word} (hw : Word.fits s.cfg.w word = true) (p : Port) :
    (s.regWrite p word).readValue p .odr = word := by
  rw [State.readValue_odr, State.regWrite_regs, Memory.get_set_same, truncW_of_fits hw]

/-- Settles O28: both commands are admitted on a present port, and the read returns the word written. -/
theorem readAfterWriteRespondsWithTheValueWritten : Obligations.ReadAfterWriteRespondsWithTheValueWritten := by
  intro s p word hp hw
  have hread := exec_rpRead_of_present (s := s.regWrite p word) hp .odr
  refine ⟨_, (execAll_cons (exec_rpWrite_odr_of_present hp word)).trans (execAll_cons hread), ?_⟩
  simp only [runOf, State.respond_hist, State.afterRead_hist, State.regWrite_hist, State.regWrite_cfg,
    readValue_odr_regWrite hw, truncW_of_fits hw, List.append_assoc, List.cons_append, List.nil_append]

/-- Under a valid configuration the bytes of ODR lie at its address, least significant first (20_memory.md R51, R53). -/
theorem readByte_odr {s : State} (hc : s.cfg.check = none) {p : Port} (hp : s.cfg.hasPort p = true) {k : Nat}
    (hk : k < s.cfg.accessBytes) :
    s.readByte ((s.cfg.addr p .odr).toNat + k) = some (byteOf s.regs[p].odr k) := by
  have hin : s.cfg.inRegister p .odr ((s.cfg.addr p .odr).toNat + k) := ⟨Nat.le_add_right _ _, Nat.add_lt_add_left hk _⟩
  rw [State.readByte, locate_of_inRegister hc hp hin, Nat.add_sub_cancel_left]
  rfl

/-- A write of ODR changes no byte outside that register (20_memory.md R52). -/
theorem readByte_regWrite_outside {s : State} {p : Port} (word : Word) {a : Nat} (ha : ¬ s.cfg.inRegister p .odr a) :
    (s.regWrite p word).readByte a = s.readByte a := by
  refine readByte_outside (State.regWrite_cfg s p word) ?clken ?mode (fun q hq => ?other) ha
  case clken | mode => rw [State.regWrite_regs, Memory.get_set_same]
  case other => exact Memory.get_set_other _ _ hq

/-- Settles O29: the bytes in the register are those of the word written, and no byte outside it changes. -/
theorem writeStoresTheBytesAtTheRegisterAddress : Obligations.WriteStoresTheBytesAtTheRegisterAddress := by
  intro s p word hc hp hw
  refine ⟨s.regWrite p word, exec_rpWrite_odr_of_present hp word, fun k hk => ?inside, fun a ha => ?outside⟩
  case inside =>
    calc (s.regWrite p word).readByte ((s.cfg.addr p .odr).toNat + k)
        = some (byteOf ((s.regWrite p word).readValue p .odr) k) :=
          readByte_odr (s := s.regWrite p word) hc ((hasPort_iff _ p).mpr hp) hk
      _ = some (byteOf word k) := by rw [readValue_odr_regWrite hw]
  case outside =>
    refine readByte_regWrite_outside word ?_
    rintro ⟨hlo, hhi⟩
    obtain h | h := ha
    · exact absurd hlo (Nat.not_le.mpr h)
    · exact absurd hhi (Nat.not_lt.mpr h)

end Sys2Proof.Machine

/-! ### Decoding and encoding (30_encoding.md) -/

namespace Sys2Proof

/-! The row of the opcode table an instruction belongs to -/

/-- The header bits that 30_encoding.md R73 and R75 say are zero for this mnemonic. -/
def Instr.mbz : Instr → Header
  | .rpRead _ _ | .rpWrite _ _ _ | .rpSet _ _ _ | .rpClear _ _ _ | .rpToggle _ _ _ => 0x00FF
  | .pinWrite _ _ _ => 0x0306
  | .pinToggle _ _ | .pinRead _ _ => 0x0307
  | .edPoll _ => 0x0FFE
  | .peStep | .peFlip | .tick => 0x0FFF

/-- Whether this mnemonic uses its operand word (30_encoding.md R73). -/
def Instr.usesO : Instr → Bool
  | .rpWrite _ _ _ | .rpSet _ _ _ | .rpClear _ _ _ | .rpToggle _ _ _ => true
  | .rpRead _ _ | .pinWrite _ _ _ | .pinToggle _ _ | .pinRead _ _ | .edPoll _ | .peStep | .peFlip | .tick => false

/-- The instruction of the same mnemonic whose operands stand in a header and operand word (30_encoding.md R71, R73). -/
def Instr.readFrom (h : Header) (o : Word) : Instr → Instr
  | .rpRead _ _ => .rpRead (fieldPort h) (fieldReg h)
  | .rpWrite _ _ _ => .rpWrite (fieldPort h) (fieldReg h) o
  | .rpSet _ _ _ => .rpSet (fieldPort h) (fieldReg h) o
  | .rpClear _ _ _ => .rpClear (fieldPort h) (fieldReg h) o
  | .rpToggle _ _ _ => .rpToggle (fieldPort h) (fieldReg h) o
  | .pinWrite _ _ _ => .pinWrite (fieldPort h) (fieldBit h) (fieldVal h)
  | .pinToggle _ _ => .pinToggle (fieldPort h) (fieldBit h)
  | .pinRead _ _ => .pinRead (fieldPort h) (fieldBit h)
  | .edPoll _ => .edPoll (fieldVal h)
  | .peStep => .peStep
  | .peFlip => .peFlip
  | .tick => .tick

/-- One instruction of each mnemonic, in the order of the opcode table, with zeros for its operands. -/
def Instr.samples : List Instr :=
  [.rpRead 0 .clken, .rpWrite 0 .clken 0, .rpSet 0 .clken 0, .rpClear 0 .clken 0, .rpToggle 0 .clken 0, .pinWrite 0 0 false,
    .pinToggle 0 0, .pinRead 0 0, .edPoll false, .peStep, .peFlip, .tick]

@[simp] theorem Instr.readFrom_mbz (h : Header) (o : Word) (i : Instr) : (i.readFrom h o).mbz = i.mbz := by
  cases i <;> rfl

@[simp] theorem Instr.readFrom_usesO (h : Header) (o : Word) (i : Instr) : (i.readFrom h o).usesO = i.usesO := by
  cases i <;> rfl

@[simp] theorem Instr.readFrom_opcode (h : Header) (o : Word) (i : Instr) : (i.readFrom h o).opcode = i.opcode := by
  cases i <;> rfl

@[simp] theorem Instr.readFrom_mnemonic (h : Header) (o : Word) (i : Instr) : (i.readFrom h o).mnemonic = i.mnemonic := by
  cases i <;> rfl

@[simp] theorem Instr.readFrom_readFrom (h h' : Header) (o o' : Word) (i : Instr) :
    (i.readFrom h o).readFrom h' o' = i.readFrom h' o' := by
  cases i <;> rfl

theorem Instr.operandWord_eq_zero {i : Instr} (hu : i.usesO = false) : i.operandWord = 0 := by
  cases i
  case rpWrite | rpSet | rpClear | rpToggle => cases hu
  all_goals rfl

theorem Instr.readFrom_operandWord {h : Header} {o : Word} {i : Instr} (ho : i.usesO = true ∨ o = 0) :
    (i.readFrom h o).operandWord = o := by
  cases i
  case rpWrite | rpSet | rpClear | rpToggle => rfl
  all_goals exact (ho.resolve_left Bool.false_ne_true).symm

/-! The decoder, once for all twelve opcodes -/

theorem decode_of_opcode {w : Nat} {cmd : Command} {i : Instr} (h : (fieldOp cmd.h).toNat = i.opcode) :
    decode w cmd = accept cmd.h (truncW w cmd.o) i.mbz i.usesO (i.readFrom cmd.h (truncW w cmd.o)) := by
  cases i
  case rpRead => exact decode_op_rpRead h
  case rpWrite => exact decode_op_rpWrite h
  case rpSet => exact decode_op_rpSet h
  case rpClear => exact decode_op_rpClear h
  case rpToggle => exact decode_op_rpToggle h
  case pinWrite => exact decode_op_pinWrite h
  case pinToggle => exact decode_op_pinToggle h
  case pinRead => exact decode_op_pinRead h
  case edPoll => exact decode_op_edPoll h
  case peStep => exact decode_op_peStep h
  case peFlip => exact decode_op_peFlip h
  case tick => exact decode_op_tick h

/-- Each opcode from 1 to 12 is some instruction's. -/
theorem exists_opcode {n : Nat} (h1 : 1 ≤ n) (h12 : n ≤ 12) : ∃ i : Instr, n = i.opcode := by
  have hall : ∀ n < 13, 1 ≤ n → ∃ i ∈ Instr.samples, n = i.opcode := by decide
  obtain ⟨i, -, hi⟩ := hall n (by omega) h1
  exact ⟨i, hi⟩

theorem hasReservedOpcode_or_opcode (h : Header) :
    Header.HasReservedOpcode h ∨ 1 ≤ (fieldOp h).toNat ∧ (fieldOp h).toNat ≤ 12 := by
  have hall : ∀ op : BitVec 4, (op = 0x0 ∨ op = 0xD ∨ op = 0xE ∨ op = 0xF) ∨ 1 ≤ op.toNat ∧ op.toNat ≤ 12 := by decide
  exact hall (fieldOp h)

/-- What the decoder answers with an instruction: its opcode, zero in the fields R75 names, and operands read from the fields. -/
theorem decode_eq_command_iff {w : Nat} {cmd : Command} {i : Instr} :
    decode w cmd = .command i ↔
      (fieldOp cmd.h).toNat = i.opcode ∧ cmd.h &&& i.mbz = 0 ∧ (i.usesO = true ∨ truncW w cmd.o = 0) ∧
        i.readFrom cmd.h (truncW w cmd.o) = i := by
  constructor
  · intro hd
    obtain hr | ⟨h1, h12⟩ := hasReservedOpcode_or_opcode cmd.h
    · rw [decode_reserved hr] at hd; cases hd
    · obtain ⟨j, hj⟩ := exists_opcode h1 h12
      rw [decode_of_opcode hj] at hd
      obtain ⟨rfl, hm, ho⟩ := accept_command hd
      simpa using ⟨hj, hm, ho⟩
  · rintro ⟨hop, hm, ho, hi⟩
    rw [decode_of_opcode hop, accept_of hm ho, hi]

/-! The fields of a header as numbers (30_encoding.md R71) -/

theorem extract_eq_zero_iff_toNat (h : Header) (lo n : Nat) : h.extractLsb' lo n = 0 ↔ h.toNat / 2 ^ lo % 2 ^ n = 0 := by
  rw [← extract_toNat]
  exact BitVec.toNat_inj.symm

theorem fieldOp_toNat (h : Header) : (fieldOp h).toNat = h.toNat / 4096 % 16 := extract_toNat h 12 4

theorem fieldPort_val (h : Header) : (fieldPort h).val = h.toNat / 1024 % 4 := extract_toNat h 10 2

theorem fieldBit_val (h : Header) : (fieldBit h).val = h.toNat / 8 % 32 := extract_toNat h 3 5

theorem fieldReg_code (h : Header) : (fieldReg h).code = h.toNat / 256 % 4 := by
  have hcode : ∀ c : BitVec 2, (Reg.ofCode c).code = c.toNat := by decide
  exact (hcode _).trans (extract_toNat h 8 2)

theorem getLsbD_zero_iff_toNat (h : Header) : h.getLsbD 0 = true ↔ h.toNat % 2 = 1 := by
  rw [BitVec.getLsbD, Nat.testBit_zero, decide_eq_true_eq]

theorem fieldVal_toNat (h : Header) : (fieldVal h).toNat = h.toNat % 2 := by
  rw [fieldVal, BitVec.getLsbD, Nat.testBit_zero]
  obtain hbit | hbit := Nat.mod_two_eq_zero_or_one h.toNat <;> simp [hbit]

/-- The encoder writes each operand where the decoder reads it. -/
theorem Instr.readFrom_header (i : Instr) : i.readFrom i.header i.operandWord = i := by
  cases i <;>
    simp [Instr.readFrom, Instr.header, Instr.operandWord, Instr.opcode, fieldPort_header, fieldReg_header, fieldBit_header,
      fieldVal_header, Laws.code_lt, Bool.toNat_le]

/-- A header is the one built from given fields exactly when its number is theirs. -/
theorem header_eq_iff {h : Header} {op p r b v : Nat} (h1 : op < 16) (h2 : p < 4) (h3 : r < 4) (h4 : b < 32) (h5 : v < 2) :
    header op p r b v = h ↔ op * 4096 + p * 1024 + r * 256 + b * 8 + v = h.toNat := by
  rw [← BitVec.toNat_inj, header_toNat h1 h2 h3 h4 h5]

section

variable {h : Header} {op : Nat} (hop : (fieldOp h).toNat = op)
include hop

/-! For each layout of R73: the bits outside the fields used are zero exactly when those fields make up the whole header. -/

theorem mbz_regport_iff_header : h &&& 0x00FF = 0 ↔ header op (fieldPort h).val (fieldReg h).code 0 0 = h := by
  have hlt := h.isLt
  have hop' := fieldOp_toNat h
  rw [mbz_regport, header_eq_iff (hop ▸ (fieldOp h).isLt) (fieldPort h).isLt (Laws.code_lt _) (by decide) (by decide)]
  simp only [extract_eq_zero_iff_toNat, fieldPort_val, fieldReg_code]
  omega

theorem mbz_pinWrite_iff_header :
    h &&& 0x0306 = 0 ↔ header op (fieldPort h).val 0 (fieldBit h).val (fieldVal h).toNat = h := by
  have hlt := h.isLt
  have hop' := fieldOp_toNat h
  rw [mbz_pinWrite, header_eq_iff (hop ▸ (fieldOp h).isLt) (fieldPort h).isLt (by decide) (fieldBit h).isLt (Laws.bit_lt _)]
  simp only [extract_eq_zero_iff_toNat, fieldPort_val, fieldBit_val, fieldVal_toNat]
  omega

theorem mbz_pin_iff_header : h &&& 0x0307 = 0 ↔ header op (fieldPort h).val 0 (fieldBit h).val 0 = h := by
  have hlt := h.isLt
  have hop' := fieldOp_toNat h
  rw [mbz_pin, header_eq_iff (hop ▸ (fieldOp h).isLt) (fieldPort h).isLt (by decide) (fieldBit h).isLt (by decide)]
  simp only [extract_eq_zero_iff_toNat, fieldPort_val, fieldBit_val]
  omega

theorem mbz_edPoll_iff_header : h &&& 0x0FFE = 0 ↔ header op 0 0 0 (fieldVal h).toNat = h := by
  have hlt := h.isLt
  have hop' := fieldOp_toNat h
  rw [mbz_edPoll, header_eq_iff (hop ▸ (fieldOp h).isLt) (by decide) (by decide) (by decide) (Laws.bit_lt _)]
  simp only [extract_eq_zero_iff_toNat, fieldVal_toNat]
  omega

theorem mbz_plain_iff_header : h &&& 0x0FFF = 0 ↔ header op 0 0 0 0 = h := by
  have hlt := h.isLt
  have hop' := fieldOp_toNat h
  rw [mbz_plain, header_eq_iff (hop ▸ (fieldOp h).isLt) (by decide) (by decide) (by decide) (by decide)]
  simp only [extract_eq_zero_iff_toNat]
  omega

end

/-- The must-be-zero bits of a header are zero exactly when it is the header of the instruction read from it. -/
theorem and_mbz_eq_zero_iff {h : Header} {i : Instr} (hop : (fieldOp h).toNat = i.opcode) (o : Word) :
    h &&& i.mbz = 0 ↔ (i.readFrom h o).header = h := by
  cases i
  case rpRead | rpWrite | rpSet | rpClear | rpToggle => exact mbz_regport_iff_header hop
  case pinWrite => exact mbz_pinWrite_iff_header hop
  case pinToggle | pinRead => exact mbz_pin_iff_header hop
  case edPoll => exact mbz_edPoll_iff_header hop
  case peStep | peFlip | tick => exact mbz_plain_iff_header hop

theorem encodeOpcode : ∀ i : Instr, Laws.EncodeOpcode.Statement i
  | .rpRead p r => Laws.EncodeOpcode.rpRead p r
  | .rpWrite p r word => Laws.EncodeOpcode.rpWrite p r word
  | .rpSet p r mask => Laws.EncodeOpcode.rpSet p r mask
  | .rpClear p r mask => Laws.EncodeOpcode.rpClear p r mask
  | .rpToggle p r mask => Laws.EncodeOpcode.rpToggle p r mask
  | .pinWrite p b v => Laws.EncodeOpcode.pinWrite p b v
  | .pinToggle p b => Laws.EncodeOpcode.pinToggle p b
  | .pinRead p b => Laws.EncodeOpcode.pinRead p b
  | .edPoll smp => Laws.EncodeOpcode.edPoll smp
  | .peStep => Laws.EncodeOpcode.peStep
  | .peFlip => Laws.EncodeOpcode.peFlip
  | .tick => Laws.EncodeOpcode.tick

theorem fieldOp_encode (i : Instr) : (fieldOp (encode i).h).toNat = i.opcode := (encodeOpcode i).1

/-- Settles O1: the header of an encoding has the instruction's opcode, zeros where R73 wants them, and its operands in the fields. -/
theorem decodeOfEncodeIsTheInstruction : Obligations.DecodeOfEncodeIsTheInstruction := by
  intro w i hwf
  have ho : truncW w (encode i).o = i.operandWord := truncW_of_fits hwf
  have hread : i.readFrom (encode i).h i.operandWord = i := i.readFrom_header
  have hop := fieldOp_encode i
  refine decode_eq_command_iff.mpr ⟨hop, (and_mbz_eq_zero_iff hop i.operandWord).mpr ?header, ?operand, ?read⟩
  case header => rw [hread]; rfl
  case operand =>
    rw [ho]
    cases hu : i.usesO
    · exact .inr (Instr.operandWord_eq_zero hu)
    · exact .inl rfl
  case read => rw [ho, hread]

/-- Settles O2: an accepted header has zeros outside the fields its instruction uses, so those fields are all of it. -/
theorem acceptedWordIsTheEncoding : Obligations.AcceptedWordIsTheEncoding := by
  intro w cmd i hd
  obtain ⟨hop, hm, ho, hi⟩ := decode_eq_command_iff.mp hd
  have hheader : i.header = cmd.h := by
    have := (and_mbz_eq_zero_iff hop (truncW w cmd.o)).mp hm
    rwa [hi] at this
  have hword : i.operandWord = truncW w cmd.o := by
    have := Instr.readFrom_operandWord (h := cmd.h) ho
    rwa [hi] at this
  exact ⟨by rw [encode, hheader, hword], by rw [Instr.wf, hword, truncW_fits]⟩

end Sys2Proof

/-! ### The opcode table (30_encoding.md R73, R77) -/

namespace Sys2Proof

/-- The opcode-table row of an instruction's mnemonic: the opcode and the must-be-zero fields are the bits it compares. -/
def Instr.row (i : Instr) : OpRow :=
  { mnemonic := i.mnemonic, pat := BitVec.ofNat 16 (i.opcode <<< 12), mask := 0xF000 ||| i.mbz, usesO := i.usesO }

theorem opRows_eq_map_row : opRows = Instr.samples.map Instr.row := by decide

theorem exists_row {row : OpRow} (h : row ∈ opRows) : ∃ i : Instr, i.row = row := by
  rw [opRows_eq_map_row] at h
  obtain ⟨i, -, hi⟩ := List.mem_map.mp h
  exact ⟨i, hi⟩

/-- The row of an instruction does not depend on its operands. -/
theorem Instr.readFrom_row (h : Header) (o : Word) (i : Instr) : (i.readFrom h o).row = i.row := by
  simp only [Instr.row, Instr.readFrom_mnemonic, Instr.readFrom_opcode, Instr.readFrom_mbz, Instr.readFrom_usesO]

/-- With every operand read from zeros, an instruction is one of the samples. -/
theorem Instr.readFrom_zero_mem_samples (i : Instr) : i.readFrom 0 0 ∈ Instr.samples := by
  cases i <;> (simp only [Instr.readFrom]; decide)

theorem Instr.row_mem (i : Instr) : i.row ∈ opRows := by
  rw [opRows_eq_map_row, ← i.readFrom_row 0 0]
  exact List.mem_map_of_mem i.readFrom_zero_mem_samples

/-- A mnemonic has one row. -/
theorem row_eq_of_mnemonic {r₁ r₂ : OpRow} (h₁ : r₁ ∈ opRows) (h₂ : r₂ ∈ opRows) (h : r₁.mnemonic = r₂.mnemonic) : r₁ = r₂ :=
  List.inj_on_of_nodup_map (f := OpRow.mnemonic) (by decide) h₁ h₂ h

/-- A pattern has one row. -/
theorem row_eq_of_pat {r₁ r₂ : OpRow} (h₁ : r₁ ∈ opRows) (h₂ : r₂ ∈ opRows) (h : r₁.pat = r₂.pat) : r₁ = r₂ :=
  List.inj_on_of_nodup_map (f := OpRow.pat) (by decide) h₁ h₂ h

/-- A row that matches a header has its opcode bits for a pattern: the mask covers `H[15:12]` and the pattern has no other bit. -/
theorem opcodeBits_of_match {h : Header} {row : OpRow} (hrow : row ∈ opRows) (hm : h &&& row.mask = row.pat) :
    h &&& 0xF000 = row.pat := by
  have hall : ∀ row ∈ opRows, row.mask &&& 0xF000 = 0xF000 ∧ row.pat &&& 0xF000 = row.pat := by decide
  obtain ⟨hmask, hpat⟩ := hall row hrow
  calc h &&& 0xF000
      = (h &&& row.mask) &&& 0xF000 := by rw [BitVec.and_assoc, hmask]
    _ = row.pat := by rw [hm, hpat]

/-- Settles O6: two rows that match one header have its opcode bits for a pattern, and no two rows share a pattern. -/
theorem atMostOneRowMatches : Obligations.AtMostOneRowMatches := by
  intro h r₁ r₂ hr₁ hr₂ hm₁ hm₂
  exact row_eq_of_pat hr₁ hr₂ ((opcodeBits_of_match hr₁ hm₁).symm.trans (opcodeBits_of_match hr₂ hm₂))

theorem opcodeBits_eq (h : Header) : h &&& (0xF000 : Header) = (BitVec.ofNat 16 ((fieldOp h).toNat <<< 12) : Header) := by
  have hmask : ∀ k < 16, (0xF000 : Header).getLsbD k = decide (12 ≤ k) := by decide
  apply BitVec.eq_of_getLsbD_eq
  intro k hk
  rw [BitVec.getLsbD_and, hmask k hk, BitVec.getLsbD_ofNat, Nat.testBit_shiftLeft, BitVec.testBit_toNat, fieldOp,
    BitVec.getLsbD_extractLsb']
  by_cases h12 : 12 ≤ k
  · simp [h12, hk, show k - 12 < 4 by omega, -BitVec.getLsbD_eq_getElem]
  · simp [h12]

/-- A row matches the headers with its opcode and zeros in its must-be-zero bits. -/
theorem row_match_iff {h : Header} {i : Instr} :
    h &&& i.row.mask = i.row.pat ↔ (fieldOp h).toNat = i.opcode ∧ h &&& i.mbz = 0 := by
  constructor
  · intro hm
    have hmbz : i.row.mask &&& i.mbz = i.mbz := by cases i <;> simp [Instr.row, Instr.mbz]
    have hpat : i.row.pat &&& i.mbz = 0 := by cases i <;> simp [Instr.row, Instr.opcode, Instr.mbz]
    have hbits := congrArg BitVec.toNat ((opcodeBits_eq h).symm.trans (opcodeBits_of_match i.row_mem hm))
    have hlt := (fieldOp h).isLt
    obtain ⟨-, h12⟩ := Laws.opcode_range i
    simp only [Instr.row, BitVec.toNat_ofNat, Nat.shiftLeft_eq] at hbits
    refine ⟨by omega, ?_⟩
    calc h &&& i.mbz
        = (h &&& i.row.mask) &&& i.mbz := by rw [BitVec.and_assoc, hmbz]
      _ = 0 := by rw [hm, hpat]
  · rintro ⟨hop, hm⟩
    calc h &&& i.row.mask
        = (h &&& 0xF000) ||| (h &&& i.mbz) := BitVec.and_or_distrib_left
      _ = i.row.pat := by rw [opcodeBits_eq, hop, hm]; exact BitVec.or_zero

theorem row_accepts_iff {w : Nat} {cmd : Command} {i : Instr} :
    i.row.accepts w cmd = true ↔
      (fieldOp cmd.h).toNat = i.opcode ∧ cmd.h &&& i.mbz = 0 ∧ (i.usesO = true ∨ truncW w cmd.o = 0) := by
  rw [OpRow.accepts, Bool.and_eq_true, decide_eq_true_eq, row_match_iff, Bool.or_eq_true, decide_eq_true_eq, and_assoc]
  rfl

/-- Settles O3: row and decoder both ask for the opcode, zero in the reserved fields, and zero in an operand word not used. -/
theorem decoderAgreesWithTheOpcodeTable : Obligations.DecoderAgreesWithTheOpcodeTable := by
  intro w cmd row hrow
  obtain ⟨i, rfl⟩ := exists_row hrow
  constructor
  · intro ha
    obtain ⟨hop, hm, ho⟩ := row_accepts_iff.mp ha
    exact ⟨_, (decode_of_opcode hop).trans (accept_of hm ho), Instr.readFrom_mnemonic _ _ i⟩
  · rintro ⟨j, hd, hname⟩
    obtain ⟨hop, hm, ho, -⟩ := decode_eq_command_iff.mp hd
    rw [← row_eq_of_mnemonic j.row_mem hrow hname]
    exact row_accepts_iff.mpr ⟨hop, hm, ho⟩

end Sys2Proof

/-! ### Refusals by the decoder (30_encoding.md R74, R75) -/

namespace Sys2Proof

theorem word_eq_zero_iff_toNat (v : Word) : v = 0 ↔ v.toNat = 0 := BitVec.toNat_inj.symm

theorem Instr.usesO_iff_opcode (i : Instr) : i.usesO = true ↔ 2 ≤ i.opcode ∧ i.opcode ≤ 5 := by
  cases i <;> simp [Instr.usesO, Instr.opcode]

/-- A command whose must-be-zero bits are zero has no nonzero reserved field, whichever opcode it has (30_encoding.md R73, R75). -/
theorem not_hasNonzeroReservedField {w : Nat} {cmd : Command} {i : Instr} (hop : (fieldOp cmd.h).toNat = i.opcode)
    (hm : cmd.h &&& i.mbz = 0) (ho : i.usesO = true ∨ truncW w cmd.o = 0) : ¬ cmd.HasNonzeroReservedField w := by
  simp only [Command.HasNonzeroReservedField, ne_eq, extract_eq_zero_iff_toNat, getLsbD_zero_iff_toNat, word_eq_zero_iff_toNat,
    Instr.usesO_iff_opcode] at ho ⊢
  cases i
  all_goals
    simp only [Instr.opcode, Instr.mbz, mbz_regport, mbz_pinWrite, mbz_pin, mbz_edPoll, mbz_plain, extract_eq_zero_iff_toNat]
      at hop hm ho
    omega

/-- A command of a defined opcode is accepted, or refused for a reserved field (30_encoding.md R75). -/
theorem decode_defined {w : Nat} {cmd : Command} (h1 : 1 ≤ (fieldOp cmd.h).toNat) (h12 : (fieldOp cmd.h).toNat ≤ 12) :
    (∃ i, decode w cmd = .command i) ∨ decode w cmd = .refuse .reservedField := by
  obtain ⟨i, hi⟩ := exists_opcode h1 h12
  rw [decode_of_opcode hi]
  cases ha : accept cmd.h (truncW w cmd.o) i.mbz i.usesO (i.readFrom cmd.h (truncW w cmd.o)) with
  | command j => exact .inl ⟨j, rfl⟩
  | refuse r => exact .inr (by rw [accept_refuse ha])

/-- A command of a defined opcode with a nonzero reserved field (30_encoding.md R75). -/
theorem decode_reservedField {w : Nat} {cmd : Command} (h1 : 1 ≤ (fieldOp cmd.h).toNat) (h12 : (fieldOp cmd.h).toNat ≤ 12)
    (hz : cmd.HasNonzeroReservedField w) : decode w cmd = .refuse .reservedField := by
  obtain ⟨i, hd⟩ | hd := decode_defined (w := w) h1 h12
  · obtain ⟨hop, hm, ho, -⟩ := decode_eq_command_iff.mp hd
    exact absurd hz (not_hasNonzeroReservedField hop hm ho)
  · exact hd

theorem decode_reservedOpcode_iff {w : Nat} {cmd : Command} :
    decode w cmd = .refuse .reservedOpcode ↔ Header.HasReservedOpcode cmd.h := by
  refine ⟨fun hd => ?_, decode_reserved⟩
  obtain hr | ⟨h1, h12⟩ := hasReservedOpcode_or_opcode cmd.h
  · exact hr
  · obtain ⟨i, hi⟩ | hi := decode_defined (w := w) h1 h12 <;> cases hi.symm.trans hd

/-- Settles O4: the decoder gives this reason for the reserved opcodes alone, and a ready block refuses what its decoder refuses. -/
theorem reservedOpcodesAreRefused : Obligations.ReservedOpcodesAreRefused :=
  ⟨fun _ _ => decode_reservedOpcode_iff, fun _ _ _ hs ht hr => Machine.step_of_undecoded hs ht (decode_reserved hr)⟩

/-- Settles O5: the decoder gives this reason, and a ready block refuses what its decoder refuses. -/
theorem nonzeroReservedFieldsAreRefused : Obligations.NonzeroReservedFieldsAreRefused := by
  rintro s s' cmd hs ht ⟨h1, h12⟩ hz
  exact Machine.step_of_undecoded hs ht (decode_reservedField h1 h12 hz)

end Sys2Proof

/-! ### The serial form and the examples (30_encoding.md R70, R80) -/

namespace Sys2Proof

/-- Settles O8: the operand word is below `2 ^ w`, so the header and it are the quotient and remainder by `2 ^ w`. -/
theorem serialFormGivesTheCommandBack : Obligations.SerialFormGivesTheCommandBack := by
  intro w cmd _ hfit
  have ho : cmd.o.toNat < 2 ^ w := of_decide_eq_true hfit
  have hserial : cmd.serial w = 2 ^ w * cmd.h.toNat + cmd.o.toNat := by rw [Command.serial, truncW_of_fits hfit, Nat.mul_comm]
  constructor
  · calc cmd.serial w
        = 2 ^ w * cmd.h.toNat + cmd.o.toNat := hserial
      _ < 2 ^ w * (cmd.h.toNat + 1) := by rw [Nat.mul_succ]; exact Nat.add_lt_add_left ho _
      _ ≤ 2 ^ w * 2 ^ 16 := Nat.mul_le_mul_left _ cmd.h.isLt
      _ = 2 ^ (16 + w) := by rw [Nat.pow_add, Nat.mul_comm]
  · have hhigh : cmd.serial w / 2 ^ w = cmd.h.toNat := by
      rw [hserial, Nat.mul_add_div (Nat.two_pow_pos w), Nat.div_eq_of_lt ho, Nat.add_zero]
    have hlow : cmd.serial w % 2 ^ w = cmd.o.toNat := by rw [hserial, Nat.mul_add_mod, Nat.mod_eq_of_lt ho]
    rw [Command.ofSerial, hhigh, hlow, BitVec.ofNat_toNat, BitVec.ofNat_toNat, BitVec.setWidth_eq, BitVec.setWidth_eq,
      truncW_of_fits hfit]

/-- Settles O7: each example word is the encoding of its command. -/
theorem wordsOfTheExamplesDecode : Obligations.WordsOfTheExamplesDecode := by
  have hdec : ∀ i : Instr, i.wf 32 = true → decode 32 (encode i) = .command i := decodeOfEncodeIsTheInstruction 32
  exact ⟨hdec (.rpRead 1 .idr) (by decide), hdec (.rpWrite 0 .odr 0xAA) (by decide), hdec (.pinWrite 0 3 true) (by decide),
    hdec (.pinToggle 0 7) (by decide), hdec (.pinRead 1 2) (by decide), hdec (.edPoll true) (by decide),
    hdec .peStep (by decide), hdec .peFlip (by decide), hdec .tick (by decide)⟩

end Sys2Proof

/-! ### The step runs what the decoder reads (30_encoding.md R77) -/

namespace Sys2Proof.Machine

theorem takeCommand_of_take {s : State} {cmd : Command} {iss : Issuer} (h : s.issuer.take = some (cmd, iss)) :
    s.takeCommand = some (cmd, s.withIssuer iss) := by
  rw [State.takeCommand, h]
  rfl

/-- Settles O17: the command is taken, and the block runs what it decodes to. -/
theorem stepRunsTheDecodedCommand : Obligations.StepRunsTheDecodedCommand := by
  intro s cmd iss i hs ht hd
  exact step_of_decoded hs (takeCommand_of_take ht) hd

/-- The command placed is the one taken, and taking it gives the state before it was placed back. -/
theorem takeCommand_withFetchWord (s : State) (nbits w : Nat) :
    (s.withFetchWord nbits w).takeCommand = some (tableCommand nbits w, s) := rfl

/-- Settles O18: the block takes the command placed, and runs what it decodes to at the state before. -/
theorem placedCommandRunsNext : Obligations.PlacedCommandRunsNext := by
  intro s nbits w i hs hd
  exact step_of_decoded (s := s.withFetchWord nbits w) hs (takeCommand_withFetchWord s nbits w) hd

end Sys2Proof.Machine

/-! ### The Register Port commands (41_register_port.md) -/

namespace Sys2Proof

/-! The words of the five commands, whose `H[7:0]` must be zero -/

theorem accept_regport (h : Header) (o : Word) (u : Bool) (i : Instr) :
    accept h o 0x00FF u i =
      if h.extractLsb' 0 8 = 0 ∧ (u = true ∨ o = 0) then .command i else .refuse .reservedField := by
  simp only [accept, mbz_regport]

/-- A decoder arm that masks `H[7:0]` and uses `O` reads its words as those of a register write. -/
theorem decodesAsRegisterWrite {op : BitVec 4} {i : Port → Reg → Word → Instr}
    (harm : ∀ {w : Nat} {cmd : Command}, (fieldOp cmd.h).toNat = op.toNat →
      decode w cmd = accept cmd.h (truncW w cmd.o) 0x00FF true (i (fieldPort cmd.h) (fieldReg cmd.h) (truncW w cmd.o))) :
    DecodesAsRegisterWrite op i := by
  intro w h o hop
  rw [harm (cmd := ⟨h, o⟩) (by rw [hop]), accept_regport]
  simp only [true_or, and_true]

end Sys2Proof

namespace Sys2Proof.Machine

/-! The checks of the four register writes, once for all (41_register_port.md R105) -/

theorem firstRefusal_of_writtenReg {i : Instr} {p : Port} {r : Reg} (hport : i.usedPort = some p)
    (hreg : i.writtenReg = some r) (c : Config) :
    i.firstRefusal c = if c.nports ≤ p.val then some .badPort else if r = .odr then none else some .readOnlyRegister := by
  cases i
  case rpWrite | rpSet | rpClear | rpToggle =>
    cases hport
    cases hreg
    simp [Instr.firstRefusal, Instr.usedPort, Instr.usedBit, Instr.writtenReg, Instr.neededDir]
  all_goals cases hreg

theorem exec_odrWrite_of_present {i : Instr} {s : State} {p : Port} (hport : i.usedPort = some p)
    (hreg : i.writtenReg = some .odr) (hp : p.val < s.cfg.nports) : exec i s = .next (runOf i s) :=
  exec_of_admitted (by rw [firstRefusal_of_writtenReg hport hreg, if_neg (Nat.not_le.mpr hp), if_pos rfl])

theorem refusesAbsentPortThenReadOnly {i : Port → Reg → Instr} (hport : ∀ p r, (i p r).usedPort = some p)
    (hreg : ∀ p r, (i p r).writtenReg = some r) : RefusesAbsentPortThenReadOnly i := by
  intro s p r
  have hrefusal := firstRefusal_of_writtenReg (hport p r) (hreg p r) s.cfg
  constructor
  · intro hp
    exact exec_of_refused (by rw [hrefusal, if_pos hp])
  · intro hp hr
    exact exec_of_refused (by rw [hrefusal, if_neg (Nat.not_le.mpr hp), if_neg hr])

/-! The frames -/

theorem respond_afterRead_keepsRegisters (s : State) (p : Port) (r : Reg) (v : Response) :
    KeepsRegisters s ((s.afterRead p r).respond v) := by
  have hcfg : ((s.afterRead p r).respond v).cfg = s.cfg := by simp
  have hregs : ((s.afterRead p r).respond v).regs = s.regs := by simp
  exact ⟨hcfg, hregs, by simp, by simp, by simp, by simp, by simp, by simp, readByte_congr hcfg hregs⟩

theorem regWrite_writesOnlyOdr (s : State) (p : Port) (v : Word) : WritesOnlyOdr s (s.regWrite p v) p := by
  refine ⟨rfl, rfl, rfl, rfl, rfl, rfl, rfl, rfl, ?clken, ?mode, fun q hq => ?other,
    fun a ha => readByte_regWrite_outside v ha⟩
  case clken | mode => rw [State.regWrite_regs, Memory.get_set_same]
  case other => rw [State.regWrite_regs, Memory.get_set_other _ _ hq]

/-- The read before the write leaves everything the frame speaks of as it is. -/
theorem readModifyWrite_writesOnlyOdr (s : State) (p : Port) (f : Word → Word) :
    WritesOnlyOdr s (s.readModifyWrite p f) p :=
  regWrite_writesOnlyOdr (s.afterRead p .odr) p (f s.regs[p].odr)

/-! One read and one write of ODR (20_memory.md R55, R56) -/

/-- A new value that fits `W` bits is stored and recorded as it is. -/
theorem readsThenWritesOdr {i : Instr} {p : Port} {f : Word → Word} {s : State}
    (hexec : exec i s = .next (s.readModifyWrite p f)) (hfits : Word.fits s.cfg.w (f s.regs[p].odr) = true) :
    ReadsThenWritesOdr i p f s := by
  refine ⟨_, hexec, ?odr, ?hist, readModifyWrite_writesOnlyOdr s p f⟩
  case odr => rw [State.readModifyWrite_regs, Memory.get_set_same, truncW_of_fits hfits]
  case hist => rw [State.readModifyWrite_hist, truncW_of_fits hfits]

/-- A change that undoes itself, made twice, restores the registers. -/
theorem readModifyWrite_twice_regs {s : State} {p : Port} {f : Word → Word} (hold : Word.fits s.cfg.w s.regs[p].odr = true)
    (hnew : Word.fits s.cfg.w (f s.regs[p].odr) = true) (hundo : f (f s.regs[p].odr) = s.regs[p].odr) :
    ((s.readModifyWrite p f).readModifyWrite p f).regs = s.regs := by
  simp only [State.readModifyWrite_regs, State.readModifyWrite_cfg, Memory.get_set_same, truncW_of_fits hnew, hundo,
    truncW_of_fits hold]
  rw [Fin.getElem_fin, Vector.set_set]
  exact Memory.set_self _ _ _ rfl

/-! The five commands -/

/-- Settles O23: the arm masks `H[7:0]` and does not use `O`; on a present port the command is one recorded read and its response. -/
theorem rpReadRespondsWithTheRegister : Obligations.RpReadRespondsWithTheRegister := by
  refine ⟨fun w h o hop => ?words, fun s p r hp => ?effect, fun s p r hp => ?refusal⟩
  case words =>
    rw [decode_op_rpRead (cmd := ⟨h, o⟩) (by rw [hop]; rfl), accept_regport]
    simp only [Bool.false_eq_true, false_or]
  case effect =>
    refine ⟨_, s.readValue p r, exec_rpRead_of_present hp r, by simp [runOf], ?value,
      respond_afterRead_keepsRegisters s p r _⟩
    cases r <;> exact ⟨rfl, rfl⟩
  case refusal => exact exec_of_refused (by rw [firstRefusal_rpRead, if_pos hp])

/-- Settles O24: on ODR of a present port the command is one recorded write, and a W-bit word is stored as it is. -/
theorem rpWriteReplacesTheWord : Obligations.RpWriteReplacesTheWord := by
  refine ⟨decodesAsRegisterWrite decode_op_rpWrite, fun s p word hp hw => ?effect,
    fun word => refusesAbsentPortThenReadOnly (fun _ _ => rfl) fun _ _ => rfl⟩
  refine ⟨_, exec_rpWrite_odr_of_present hp word, readValue_odr_regWrite hw p, ?hist, regWrite_writesOnlyOdr s p word⟩
  rw [State.regWrite_hist, truncW_of_fits hw]

/-- Settles O25: old OR mask fits `W` bits as both do. -/
theorem rpSetSetsTheMaskedBits : Obligations.RpSetSetsTheMaskedBits :=
  ⟨decodesAsRegisterWrite decode_op_rpSet,
    fun _ p _ hp hmem hm => readsThenWritesOdr (exec_odrWrite_of_present rfl rfl hp) (fits_or (Memory.wf_odr_fits hmem p) hm),
    fun _ => refusesAbsentPortThenReadOnly (fun _ _ => rfl) fun _ _ => rfl⟩

/-- Settles O26: old AND NOT mask fits `W` bits as old does. -/
theorem rpClearClearsTheMaskedBits : Obligations.RpClearClearsTheMaskedBits :=
  ⟨decodesAsRegisterWrite decode_op_rpClear,
    fun _ p _ hp hmem _ => readsThenWritesOdr (exec_odrWrite_of_present rfl rfl hp) (fits_and_left _ (Memory.wf_odr_fits hmem p)),
    fun _ => refusesAbsentPortThenReadOnly (fun _ _ => rfl) fun _ _ => rfl⟩

/-- Settles O27: old XOR mask fits `W` bits as both do, and `(x ^ m) ^ m = x`. -/
theorem rpToggleFlipsTheMaskedBits : Obligations.RpToggleFlipsTheMaskedBits := by
  refine ⟨decodesAsRegisterWrite decode_op_rpToggle, fun s p m hp hmem hm => ?effect,
    fun _ => refusesAbsentPortThenReadOnly (fun _ _ => rfl) fun _ _ => rfl⟩
  have hold := Memory.wf_odr_fits hmem p
  have hnew := fits_xor hold hm
  have htoggle {t : State} (ht : p.val < t.cfg.nports) : exec (.rpToggle p .odr m) t = .next (runOf (.rpToggle p .odr m) t) :=
    exec_odrWrite_of_present rfl rfl ht
  refine ⟨readsThenWritesOdr (htoggle hp) hnew, _, (execAll_cons (htoggle hp)).trans (execAll_cons (htoggle hp)), ?twice⟩
  exact readModifyWrite_twice_regs hold hnew (by rw [BitVec.xor_assoc, BitVec.xor_self, BitVec.xor_zero])

end Sys2Proof.Machine

/-! ### The Digital Pin commands (42_digital_pin.md) -/

namespace Sys2Proof

/-! The words of the three commands, which do not use `O` -/

theorem accept_pinWrite (h : Header) (o : Word) (i : Instr) :
    accept h o 0x0306 false i =
      if h.extractLsb' 8 2 = 0 ∧ h.extractLsb' 1 2 = 0 ∧ o = 0 then .command i else .refuse .reservedField := by
  simp only [accept, mbz_pinWrite, Bool.false_eq_true, false_or, and_assoc]

/-- PIN_TOGGLE and PIN_READ have no value field. -/
theorem accept_pin (h : Header) (o : Word) (i : Instr) :
    accept h o 0x0307 false i =
      if h.extractLsb' 8 2 = 0 ∧ h.extractLsb' 0 3 = 0 ∧ o = 0 then .command i else .refuse .reservedField := by
  simp only [accept, mbz_pin, Bool.false_eq_true, false_or, and_assoc]

end Sys2Proof

namespace Sys2Proof.Machine

/-! The checks of the three commands, once for all (42_digital_pin.md R120) -/

theorem firstRefusal_of_neededDir {i : Instr} {p : Port} {b : BitIndex} {d : PinDir}
    (hpin : i.neededDir = some (p, b, d)) (c : Config) :
    i.firstRefusal c =
      if c.nports ≤ p.val then some .badPort else if c.w ≤ b.val then some .badBit
      else if c.pinDir p b.val = d then none else some .wrongDirection := by
  cases i
  case pinWrite | pinToggle | pinRead =>
    cases hpin
    simp [Instr.firstRefusal, Instr.usedPort, Instr.usedBit, Instr.writtenReg, Instr.neededDir]
  all_goals cases hpin

theorem exec_pin_of_direction {i : Instr} {s : State} {p : Port} {b : BitIndex} {d : PinDir}
    (hpin : i.neededDir = some (p, b, d)) (hp : p.val < s.cfg.nports) (hb : b.val < s.cfg.w)
    (hd : s.cfg.pinDir p b.val = d) : exec i s = .next (runOf i s) :=
  exec_of_admitted (by
    rw [firstRefusal_of_neededDir hpin, if_neg (Nat.not_le.mpr hp), if_neg (Nat.not_le.mpr hb), if_pos hd])

theorem refusesPortBitDirection {i : Port → BitIndex → Instr} {d : PinDir}
    (hpin : ∀ p b, (i p b).neededDir = some (p, b, d)) : RefusesPortBitDirection i d := by
  intro s p b
  have hrefusal := firstRefusal_of_neededDir (hpin p b) s.cfg
  refine ⟨fun hp => ?port, fun hp hb => ?bit, fun hp hb hd => ?direction⟩
  case port => exact exec_of_refused (by rw [hrefusal, if_pos hp])
  case bit => exact exec_of_refused (by rw [hrefusal, if_neg (Nat.not_le.mpr hp), if_pos hb])
  case direction =>
    exact exec_of_refused (by
      rw [hrefusal, if_neg (Nat.not_le.mpr hp), if_neg (Nat.not_le.mpr hb), if_neg hd])

/-! One bit of ODR -/

/-- Bit by bit, PIN_TOGGLE's value is the old word with bit `b` flipped (42_digital_pin.md R122). -/
theorem getLsbD_xor_bitMask (b : BitIndex) (old : Word) (j : Nat) :
    (old ^^^ bitMask b).getLsbD j = if j = b.val then !(old.getLsbD j) else old.getLsbD j := by
  rw [BitVec.getLsbD_xor, getLsbD_bitMask]
  by_cases h : j = b.val
  · rw [if_pos h, decide_eq_true h, Bool.xor_true]
  · rw [if_neg h, decide_eq_false h, Bool.xor_false]

/-- A new value that fits `W` bits is what ODR holds after the write. -/
theorem readModifyWrite_odr {s : State} {p : Port} {f : Word → Word}
    (hfits : Word.fits s.cfg.w (f s.regs[p].odr) = true) : (s.readModifyWrite p f).regs[p].odr = f s.regs[p].odr := by
  rw [State.readModifyWrite_regs, Memory.get_set_same, truncW_of_fits hfits]

/-- A bit that the change of an ODR in canonical form leaves alone is the same after the write: the cut to `W` bits drops no bit
that was set. -/
theorem readModifyWrite_getLsbD_of_eq {s : State} {p : Port} {f : Word → Word} {j : Nat}
    (hold : Word.fits s.cfg.w s.regs[p].odr = true) (hf : (f s.regs[p].odr).getLsbD j = s.regs[p].odr.getLsbD j) :
    (s.readModifyWrite p f).regs[p].odr.getLsbD j = s.regs[p].odr.getLsbD j := by
  rw [State.readModifyWrite_regs, Memory.get_set_same, getLsbD_truncW, hf, ← getLsbD_truncW, truncW_of_fits hold]

/-- A pin command that writes is a read-modify-write of ODR whose change leaves every bit but its own alone. -/
theorem runOf_pin_eq_readModifyWrite {i : Instr} {p : Port} {b : BitIndex}
    (hi : i = .pinToggle p b ∨ ∃ v, i = .pinWrite p b v) (s : State) :
    ∃ f : Word → Word, runOf i s = s.readModifyWrite p f ∧
      ∀ (old : Word) (j : Nat), j ≠ b.val → (f old).getLsbD j = old.getLsbD j := by
  obtain rfl | ⟨v, rfl⟩ := hi
  · exact ⟨_, rfl, fun old j hj => (getLsbD_xor_bitMask b old j).trans (if_neg hj)⟩
  · exact ⟨_, rfl, fun old j hj => (getLsbD_pinValue b v old j).trans (if_neg hj)⟩

/-! The three commands -/

/-- Settles O30: the new value fits `W` bits as old does and `b` lies below `W`, so it is stored as it is. -/
theorem pinWriteSetsExactlyItsBit : Obligations.PinWriteSetsExactlyItsBit := by
  refine ⟨fun w h o hop => ?words, fun s p b v hp hb hd hmem => ?effect, fun v => refusesPortBitDirection fun _ _ => rfl⟩
  case words => rw [decode_op_pinWrite (cmd := ⟨h, o⟩) (by rw [hop]; rfl), accept_pinWrite]
  case effect =>
    have hexec : exec (.pinWrite p b v) s = .next (s.readModifyWrite p (pinValue b v)) := exec_pin_of_direction rfl hp hb hd
    have hnew := fits_pinValue v hb (Memory.wf_odr_fits hmem p)
    refine ⟨readsThenWritesOdr hexec hnew, _, hexec, fun j => ?_⟩
    rw [readModifyWrite_odr hnew, getLsbD_pinValue]

/-- Settles O31: the new value fits `W` bits as old and the bit's mask do, and `(x ^ m) ^ m = x`. -/
theorem pinToggleFlipsExactlyItsBit : Obligations.PinToggleFlipsExactlyItsBit := by
  refine ⟨fun w h o hop => ?words, fun s p b hp hb hd hmem => ?effect, refusesPortBitDirection fun _ _ => rfl⟩
  case words => rw [decode_op_pinToggle (cmd := ⟨h, o⟩) (by rw [hop]; rfl), accept_pin]
  case effect =>
    have htoggle {t : State} (ht : t.cfg = s.cfg) :
        exec (.pinToggle p b) t = .next (t.readModifyWrite p fun old => old ^^^ bitMask b) :=
      exec_pin_of_direction rfl (ht ▸ hp) (ht ▸ hb) (ht ▸ hd)
    have hold := Memory.wf_odr_fits hmem p
    have hnew := fits_xor hold (fits_bitMask hb)
    refine ⟨readsThenWritesOdr (htoggle rfl) hnew, ⟨_, htoggle rfl, fun j => ?flips⟩,
      _, (execAll_cons (htoggle rfl)).trans (execAll_cons (htoggle rfl)), ?twice⟩
    case flips => rw [readModifyWrite_odr hnew, getLsbD_xor_bitMask]
    case twice => exact readModifyWrite_twice_regs hold hnew (by rw [BitVec.xor_assoc, BitVec.xor_self, BitVec.xor_zero])

/-- Below `W` the level read is the draw's own bit, for the draw is cut to `W` bits only (42_digital_pin.md R123). -/
theorem pinLevel_truncW {w : Nat} {b : BitIndex} (hb : b.val < w) (x : Word) :
    pinLevel b (truncW w x) = x.getLsbD b.val := by
  rw [pinLevel_eq, getLsbD_truncW, decide_eq_true hb, Bool.true_and]

/-- Settles O32: on an input pin the command is one recorded read of IDR and its response. -/
theorem pinReadRespondsWithItsBitOfTheDraw : Obligations.PinReadRespondsWithItsBitOfTheDraw := by
  refine ⟨fun w h o hop => ?words, fun s p b hp hb hd => ?effect, refusesPortBitDirection fun _ _ => rfl⟩
  case words => rw [decode_op_pinRead (cmd := ⟨h, o⟩) (by rw [hop]; rfl), accept_pin]
  case effect =>
    refine ⟨_, exec_pin_of_direction rfl hp hb hd, ?hist, rfl, respond_afterRead_keepsRegisters s p .idr _⟩
    simp only [runOf, State.respond_hist, State.afterRead_hist, State.readValue_idr, pinLevel_truncW hb, List.append_assoc,
      List.cons_append, List.nil_append]

/-- Settles O33: a refusal writes no register, and the run is a read-modify-write that leaves the other bits alone. -/
theorem pinCommandsPreserveOtherBits : Obligations.PinCommandsPreserveOtherBits := by
  intro s t p b i _ _ hmem hi h
  obtain ⟨r, -, rfl⟩ | ⟨-, rfl⟩ := exec_cases h
  · exact ⟨fun _ _ => rfl, rfl, rfl, fun _ _ => rfl⟩
  · obtain ⟨f, hrun, hf⟩ := runOf_pin_eq_readModifyWrite hi s
    obtain ⟨-, -, -, -, -, -, -, -, hclken, hmode, hother, -⟩ := readModifyWrite_writesOnlyOdr s p f
    rw [hrun]
    exact ⟨fun j hj => readModifyWrite_getLsbD_of_eq (Memory.wf_odr_fits hmem p) (hf _ j hj), hclken, hmode, hother⟩

/-! ### The pattern pins written one by one (42_digital_pin.md R125) -/

/-- Pattern pin `i`, as the bit of ODR it is. -/
def patternPin (c : Config) (i : Fin 8) : BitIndex := Fin.ofNat 32 (c.patternLsb + i.val)

/-- The PIN_WRITE of pattern pin `i` with its bit of `m`. -/
def patternPinWrite (c : Config) (m : Byte) (i : Fin 8) : Instr :=
  .pinWrite c.outPort (patternPin c i) (m.getLsbD i.val)

/-- Under a valid configuration the pattern pins are bits of a register. -/
theorem patternPin_val {c : Config} (hc : c.check = none) (i : Fin 8) : (patternPin c i).val = c.patternLsb + i.val := by
  have hspan := check_none_span hc
  have hwidth := check_none_width hc
  rw [patternPin, Fin.val_ofNat, Nat.mod_eq_of_lt (by omega)]

/-- Under a valid configuration every pattern pin is an output pin of a present port, so its PIN_WRITE is admitted. -/
theorem exec_patternPinWrite {s : State} (hc : s.cfg.check = none) (m : Byte) (i : Fin 8) :
    exec (patternPinWrite s.cfg m i) s =
      .next (s.readModifyWrite s.cfg.outPort (pinValue (patternPin s.cfg i) (m.getLsbD i.val))) := by
  have hval := patternPin_val hc i
  have hspan := check_none_span hc
  exact exec_pin_of_direction rfl ((hasPort_iff _ _).mp (check_none_outPort hc)) (by omega)
    (by rw [hval]; exact check_none_span_output hc i.isLt)

/-- A read-modify-write of ODR shows as one more write of it. -/
theorem odrWrites_readModifyWrite (s : State) (p : Port) (f : Word → Word) :
    odrWrites p (s.readModifyWrite p f).hist = odrWrites p s.hist ++ [truncW s.cfg.w (f s.regs[p].odr)] := by
  simp [odrWrites]

/-- What the PIN_WRITEs of the pattern pins `pins` with the bits of `m` make of a block with configuration `c`: ODR of the output
port has the bits of `m` at those pins and its old bits elsewhere, and each PIN_WRITE records one read and one write. -/
structure PatternPinsWritten (c : Config) (m : Byte) (pins : List (Fin 8)) (s t : State) : Prop where
  bits : ∀ j : Nat, t.regs[c.outPort].odr.getLsbD j =
    if ∃ i ∈ pins, j = c.patternLsb + i.val then m.getLsbD (j - c.patternLsb) else s.regs[c.outPort].odr.getLsbD j
  hist_length : t.hist.length = s.hist.length + 2 * pins.length
  writes_length : (odrWrites c.outPort t.hist).length = (odrWrites c.outPort s.hist).length + pins.length

theorem PatternPinsWritten.nil (c : Config) (m : Byte) (s : State) : PatternPinsWritten c m [] s s where
  bits j := by simp
  hist_length := rfl
  writes_length := rfl

/-- One pin and then others; that the first may be among them does no harm, for each pin is given its own bit of `m`. -/
theorem PatternPinsWritten.cons {c : Config} {m : Byte} {i : Fin 8} {pins : List (Fin 8)} {s t u : State}
    (hi : PatternPinsWritten c m [i] s t) (hpins : PatternPinsWritten c m pins t u) :
    PatternPinsWritten c m (i :: pins) s u where
  bits j := by
    rw [hpins.bits, hi.bits]
    by_cases hj : j = c.patternLsb + i.val <;> simp [hj]
  hist_length := by simp only [hpins.hist_length, hi.hist_length, List.length_cons, List.length_nil]; omega
  writes_length := by simp only [hpins.writes_length, hi.writes_length, List.length_cons, List.length_nil]; omega

/-- The PIN_WRITE of one pattern pin, with the state's ODR in canonical form. -/
theorem patternPinsWritten_singleton {s : State} (hc : s.cfg.check = none) (hmem : Memory.wf s.cfg s.regs = true) (m : Byte)
    (i : Fin 8) :
    PatternPinsWritten s.cfg m [i] s
      (s.readModifyWrite s.cfg.outPort (pinValue (patternPin s.cfg i) (m.getLsbD i.val))) where
  bits j := by
    have hval := patternPin_val hc i
    have hspan := check_none_span hc
    rw [readModifyWrite_odr (fits_pinValue _ (by omega) (Memory.wf_odr_fits hmem _)), getLsbD_pinValue, hval]
    by_cases hj : j = s.cfg.patternLsb + i.val <;> simp [hj]
  hist_length := by rw [State.readModifyWrite_hist, List.length_append]; rfl
  writes_length := by rw [odrWrites_readModifyWrite, List.length_append]; rfl

/-- The pattern pins can be written in any order. -/
theorem execAll_patternPinWrites (m : Byte) (pins : List (Fin 8)) :
    ∀ {s : State}, s.cfg.check = none → Memory.wf s.cfg s.regs = true →
      ∃ t, execAll (pins.map (patternPinWrite s.cfg m)) s = .next t ∧ PatternPinsWritten s.cfg m pins s t := by
  induction pins with
  | nil => exact fun {s} _ _ => ⟨s, rfl, .nil s.cfg m s⟩
  | cons i pins ih =>
    intro s hc hmem
    have hwf := readModifyWrite_memory_wf (pinValue (patternPin s.cfg i) (m.getLsbD i.val)) hmem (check_none_outPort hc)
    obtain ⟨u, hrest, hpins⟩ := ih (s := s.readModifyWrite s.cfg.outPort _) hc hwf
    exact ⟨u, (execAll_cons (exec_patternPinWrite hc m i)).trans hrest,
      (patternPinsWritten_singleton hc hmem m i).cons hpins⟩

/-- With all eight pins written, ODR is the merge of the pattern (45_control_loop.md R192). -/
theorem PatternPinsWritten.odr_eq_patternMerge {c : Config} {m : Byte} {pins : List (Fin 8)} {s t : State}
    (ht : PatternPinsWritten c m pins s t) (hall : ∀ i, i ∈ pins) :
    t.regs[c.outPort].odr = patternMerge c s.regs[c.outPort].odr m := by
  apply BitVec.eq_of_getLsbD_eq
  intro j hj
  have hspan : (∃ i ∈ pins, j = c.patternLsb + i.val) ↔ c.patternLsb ≤ j ∧ j < c.patternLsb + 8 := by
    constructor
    · rintro ⟨i, -, rfl⟩
      omega
    · rintro ⟨hlo, hhi⟩
      exact ⟨⟨j - c.patternLsb, by omega⟩, hall _, by simp only; omega⟩
  simp only [ht.bits, getLsbD_patternMerge _ _ _ _ hj, hspan]

/-- Settles O34: an order of the eight pins has each of them, and has length 8. -/
theorem eightPinWritesEqualOnePatternWrite : Obligations.EightPinWritesEqualOnePatternWrite := by
  intro s m order hc hmem hperm
  obtain ⟨t, hexec, ht⟩ := execAll_patternPinWrites m order hc hmem
  have hlength : order.length = 8 := hperm.length_eq
  have hall : ∀ i, i ∈ order := fun i => hperm.mem_iff.mpr (by revert i; decide)
  refine ⟨t, hexec, ht.odr_eq_patternMerge hall, ?hist, ?writes⟩
  case hist => rw [ht.hist_length, hlength]
  case writes => rw [ht.writes_length, hlength]

end Sys2Proof.Machine

/-! ### The Edge Detector command (43_edge_detector.md) -/

namespace Sys2Proof

/-- ED_POLL has no field but its sample and does not use `O`. -/
theorem accept_edPoll (h : Header) (o : Word) (i : Instr) :
    accept h o 0x0FFE false i = if h.extractLsb' 1 11 = 0 ∧ o = 0 then .command i else .refuse .reservedField := by
  simp only [accept, mbz_edPoll, Bool.false_eq_true, false_or]

end Sys2Proof

namespace Sys2Proof.Machine

theorem edge_eq_true_iff (prev smp : Bool) : edge prev smp = true ↔ prev = false ∧ smp = true := by
  rw [edge, Bool.and_eq_true, Bool.not_eq_true']

/-- No check refuses ED_POLL, so its rule always runs. -/
theorem exec_edPoll (smp : Bool) (s : State) :
    exec (.edPoll smp) s = .next ((s.setPrev smp).respond (.bit (edge s.prev smp))) :=
  exec_of_admitted (firstRefusal_edPoll s.cfg smp)

/-- Settles O35: the arm masks `H[11:1]` and does not use `O`, and the rule's run is one response and the sample stored. -/
theorem edPollReportsRisingEdges : Obligations.EdPollReportsRisingEdges := by
  refine ⟨fun w h o hop => ?words, fun s smp => ?effect⟩
  case words => rw [decode_op_edPoll (cmd := ⟨h, o⟩) (by rw [hop]; rfl), accept_edPoll, fieldVal]
  case effect =>
    exact ⟨_, edge s.prev smp, exec_edPoll smp s, edge_eq_true_iff s.prev smp, rfl, rfl, rfl, rfl, rfl, rfl, rfl, rfl, rfl, rfl,
      readByte_congr rfl rfl⟩

/-- Settles O36, by induction on the samples: each poll responds with the edge between the sample stored and its own, and stores
its own for the next. -/
theorem oneRisingEdgePerSampledRise : Obligations.OneRisingEdgePerSampledRise := by
  intro samples
  induction samples with
  | nil => exact fun s => ⟨s, rfl, (List.append_nil s.hist).symm, rfl⟩
  | cons smp rest ih =>
    intro s
    obtain ⟨t, hexec, hhist, hprev⟩ := ih ((s.setPrev smp).respond (.bit (edge s.prev smp)))
    refine ⟨t, (execAll_cons (exec_edPoll smp s)).trans hexec, ?hist, ?prev⟩
    case hist =>
      simp only [hhist, State.respond_hist, State.respond_prev, State.setPrev_hist, State.setPrev_prev, edge,
        List.append_assoc, List.singleton_append, List.zip_cons_cons, List.map_cons]
    case prev => rw [hprev, State.respond_prev, State.setPrev_prev, List.getLastD_cons]

end Sys2Proof.Machine

/-! ### Pattern Engine: its two commands (44_pattern_engine.md R160 to R164) -/

namespace Sys2Proof

/-- PE_STEP, PE_FLIP and TICK have no field and do not use `O`. -/
theorem accept_plain (h : Header) (o : Word) (i : Instr) :
    accept h o 0x0FFF false i = if h.extractLsb' 0 12 = 0 ∧ o = 0 then .command i else .refuse .reservedField := by
  simp only [accept, mbz_plain, Bool.false_eq_true, false_or]

end Sys2Proof

namespace Sys2Proof.Machine

/-- No check refuses PE_STEP, so its rule always runs. -/
theorem exec_peStep (s : State) : exec .peStep s = .next (runOf .peStep s) :=
  exec_of_admitted (firstRefusal_peStep s.cfg)

theorem exec_peFlip_rotate {s : State} (hv : s.cfg.variant = .rotate) : exec .peFlip s = .next s.flip :=
  exec_of_admitted (by rw [firstRefusal_peFlip, hv, if_neg (by decide)])

theorem exec_peFlip_bounce {s : State} (hv : s.cfg.variant = .bounce) : exec .peFlip s = .next (s.refuse .flipInBounce) :=
  exec_of_refused (by rw [firstRefusal_peFlip, if_pos hv])

/-! The step of each variant -/

theorem patternNext_rotate {c : Config} (hv : c.variant = .rotate) : patternNext c = rotateNext := by
  funext m d
  simp only [patternNext, hv]

theorem patternNext_bounce {c : Config} (hv : c.variant = .bounce) : patternNext c = bounceNext c.top c.bottom := by
  funext m d
  simp only [patternNext, hv]

@[simp] theorem rotateNext_snd (m : Byte) (d : Dir) : (rotateNext m d).2 = d := by cases d <;> rfl

/-- How far above bit `i`, around the byte, the bit lies that a rotation brings to `i`. -/
def rotateSource : Dir → Nat
  | .forward => 7
  | .reverse => 1

/-- Bit by bit, a rotation moves each bit one place and wraps (R161). -/
theorem getLsbD_rotateNext (m : Byte) (d : Dir) {i : Nat} (hi : i < 8) :
    (rotateNext m d).1.getLsbD i = m.getLsbD ((i + rotateSource d) % 8) := by
  cases d with
  | forward =>
    change (m.rotateLeft 1).getLsbD i = m.getLsbD ((i + 7) % 8)
    rw [BitVec.getLsbD_rotateLeft]
    rcases Nat.eq_zero_or_pos i with rfl | hpos
    · rfl
    · have hsource : (i + 7) % 8 = i - 1 := by omega
      have hwrap : ¬ i < 1 := by omega
      simp [hsource, hwrap, hi]
  | reverse =>
    change (m.rotateRight 1).getLsbD i = m.getLsbD ((i + 1) % 8)
    rw [BitVec.getLsbD_rotateRight]
    rcases Nat.lt_or_ge i 7 with hlt | hge
    · have hsource : (i + 1) % 8 = 1 + i := by omega
      simp [hsource, hlt]
    · have htop : i = 7 := by omega
      subst htop
      rfl

/-- A Bounce step shifts left, and goes forward, where it goes forward below TOP or turns at BOTTOM (R162). -/
theorem bounceNext_of_left {top bottom m : Byte} {d : Dir} (h : (d = .forward ∧ m ≠ top) ∨ (d = .reverse ∧ m = bottom)) :
    bounceNext top bottom m d = (m <<< 1, .forward) := by
  obtain ⟨rfl, hm⟩ | ⟨rfl, hm⟩ := h
  · exact if_neg hm
  · exact if_pos hm

/-- A Bounce step shifts right, and goes in reverse, where it goes in reverse above BOTTOM or turns at TOP (R162). -/
theorem bounceNext_of_right {top bottom m : Byte} {d : Dir} (h : (d = .reverse ∧ m ≠ bottom) ∨ (d = .forward ∧ m = top)) :
    bounceNext top bottom m d = (m >>> 1, .reverse) := by
  obtain ⟨rfl, hm⟩ | ⟨rfl, hm⟩ := h
  · exact if_neg hm
  · exact if_pos hm

/-- The step of either variant, bit by bit (R161, R162). -/
theorem patternStepped_patternNext (c : Config) (m : Byte) (d : Dir) :
    PatternStepped c m (patternNext c m d).1 d (patternNext c m d).2 := by
  refine ⟨fun hv => ?rotate, fun hv => ⟨fun h => ?left, fun h => ?right⟩⟩
  case rotate =>
    rw [patternNext_rotate hv]
    exact ⟨rotateNext_snd m d, fun i hi => by cases d <;> exact getLsbD_rotateNext m _ hi⟩
  case left =>
    rw [patternNext_bounce hv, bounceNext_of_left h]
    exact ⟨rfl, by simp, fun i hi => by rw [BitVec.getLsbD_shiftLeft, decide_eq_true (by omega)]; simp⟩
  case right =>
    rw [patternNext_bounce hv, bounceNext_of_right h]
    exact ⟨rfl, by simp, fun i _ => by rw [BitVec.getLsbD_ushiftRight, Nat.add_comm]⟩

/-- Settles O37: the arm masks `H[11:0]` and does not use `O`, and the rule's run is the step committed and one response. -/
theorem peStepMovesThePattern : Obligations.PeStepMovesThePattern := by
  refine ⟨fun w h o hop => ?words, fun s => ?effect⟩
  case words => rw [decode_op_peStep (cmd := ⟨h, o⟩) (by rw [hop]; rfl), accept_plain]
  case effect =>
    exact ⟨_, exec_peStep s, patternStepped_patternNext s.cfg s.mask s.dir, rfl, rfl, rfl, rfl, rfl, rfl, rfl, rfl,
      readByte_congr rfl rfl⟩

theorem flipDir_ne (d : Dir) : flipDir d ≠ d := by cases d <;> decide

@[simp] theorem flipDir_flipDir (d : Dir) : flipDir (flipDir d) = d := by cases d <;> rfl

@[simp] theorem State.flip_flip (s : State) : s.flip.flip = s := by
  simp only [State.flip, flipDir_flipDir]

/-- Settles O38: the arm is that of PE_STEP, and the one check is of the variant. -/
theorem peFlipFlipsTheDirectionInRotate : Obligations.PeFlipFlipsTheDirectionInRotate := by
  refine ⟨fun w h o hop => ?words, fun s hv => ⟨?effect, ?twice⟩, fun s hv => exec_peFlip_bounce hv⟩
  case words => rw [decode_op_peFlip (cmd := ⟨h, o⟩) (by rw [hop]; rfl), accept_plain]
  case effect =>
    exact ⟨s.flip, exec_peFlip_rotate hv, flipDir_ne s.dir, rfl, rfl, rfl, rfl, rfl, rfl, rfl, rfl, rfl, readByte_congr rfl rfl⟩
  case twice =>
    calc execAll [.peFlip, .peFlip] s
      _ = execAll [.peFlip] s.flip := execAll_cons (exec_peFlip_rotate hv)
      _ = .next s.flip.flip := execAll_cons (exec_peFlip_rotate (s := s.flip) hv)
      _ = .next s := by rw [State.flip_flip]

/-! ### When the direction changes (44_pattern_engine.md R160, 45_control_loop.md R196) -/

/-- A Bounce step turns at a boundary mask only. -/
theorem boundary_of_bounceNext_snd_ne {top bottom m : Byte} {d : Dir} (h : (bounceNext top bottom m d).2 ≠ d) :
    (d = .forward ∧ m = top) ∨ (d = .reverse ∧ m = bottom) := by
  cases d with
  | forward => exact .inl ⟨rfl, by_contra fun hm => h (by rw [bounceNext_of_left (.inl ⟨rfl, hm⟩)])⟩
  | reverse => exact .inr ⟨rfl, by_contra fun hm => h (by rw [bounceNext_of_right (.inl ⟨rfl, hm⟩)])⟩

/-- In the Bounce variant a TICK steps in the direction it finds, whatever the sample. -/
theorem tickDir_bounce {s : State} (hv : s.cfg.variant = .bounce) : tickDir s = s.dir :=
  if_neg fun h => absurd (hv.symm.trans h.2) (by decide)

theorem runOf_peStep_dir (s : State) : (runOf .peStep s).dir = (patternNext s.cfg s.mask s.dir).2 := rfl

/-- In the Rotate variant the direction changes on a flip or a rising edge only. -/
theorem rotate_dir_ne {i : Instr} {s : State} (hv : s.cfg.variant = .rotate) (h : (runOf i s).dir ≠ s.dir) :
    i = .peFlip ∨ (i = .tick ∧ s.prev = false ∧ tickSample s = true) := by
  obtain rfl | rfl | rfl := (runOf_dir_cases i s).resolve_left h
  · exact absurd (by rw [runOf_peStep_dir, patternNext_rotate hv, rotateNext_snd]) h
  · exact .inl rfl
  · have hflip : tickDir s ≠ s.dir := by rwa [runOf_tick_dir, tickNext, patternNext_rotate hv, rotateNext_snd] at h
    have hedge : edge s.prev (tickSample s) = true := by_contra fun he => hflip (if_neg fun hc => he hc.1)
    exact .inr ⟨rfl, (edge_eq_true_iff _ _).mp hedge⟩

/-- In the Bounce variant the direction changes at a boundary mask only, by a command that steps the pattern. -/
theorem bounce_dir_ne {i : Instr} {s : State} (hv : s.cfg.variant = .bounce) (hf : i.firstRefusal s.cfg = none)
    (h : (runOf i s).dir ≠ s.dir) :
    (i = .peStep ∨ i = .tick) ∧
      ((s.dir = .forward ∧ s.mask = s.cfg.top) ∨ (s.dir = .reverse ∧ s.mask = s.cfg.bottom)) := by
  obtain rfl | rfl | rfl := (runOf_dir_cases i s).resolve_left h
  · rw [runOf_peStep_dir, patternNext_bounce hv] at h
    exact ⟨.inl rfl, boundary_of_bounceNext_snd_ne h⟩
  · rw [firstRefusal_peFlip, if_pos hv] at hf
    cases hf
  · rw [runOf_tick_dir, tickNext, tickDir_bounce hv, patternNext_bounce hv] at h
    exact ⟨.inr rfl, boundary_of_bounceNext_snd_ne h⟩

/-- Settles O43: a refusal keeps the direction, and a rule's run changes it for the reason of the variant. -/
theorem directionChangesOnlyForItsVariantsReason : Obligations.DirectionChangesOnlyForItsVariantsReason := by
  intro i s t hexec hne
  obtain ⟨r, -, rfl⟩ | ⟨hf, rfl⟩ := exec_cases hexec
  · exact absurd rfl hne
  · exact ⟨fun hv => rotate_dir_ne hv hne, fun hv => bounce_dir_ne hv hf hne⟩

/-! ### Population counts (44_pattern_engine.md R165, R167) -/

/-- Settles O39: the two rotations are the Rotate step in its two directions. -/
theorem rotationsPreservePopulationCount : Obligations.RotationsPreservePopulationCount := by
  intro m
  have hl : popcount8 (rotl8 m) = popcount8 m := popcount8_rotateNext m .forward
  have hr : popcount8 (rotr8 m) = popcount8 m := popcount8_rotateNext m .reverse
  exact ⟨hl.trans hr.symm, hr⟩

/-- A left shift loses bit 7 and fills with 0. -/
theorem popcount8_shiftLeft (m : Byte) : popcount8 (m <<< 1) + (m.getLsbD 7).toNat = popcount8 m := by
  revert m
  decide

/-- A right shift loses bit 0 and fills with 0. -/
theorem popcount8_shiftRight (m : Byte) : popcount8 (m >>> 1) + (m.getLsbD 0).toNat = popcount8 m := by
  revert m
  decide

theorem popcount8_shiftLeft_eq_iff (m : Byte) : popcount8 (m <<< 1) = popcount8 m ↔ m.getLsbD 7 = false := by
  rw [← popcount8_shiftLeft m, left_eq_add, Bool.toNat_eq_zero]

theorem popcount8_shiftRight_eq_iff (m : Byte) : popcount8 (m >>> 1) = popcount8 m ↔ m.getLsbD 0 = false := by
  rw [← popcount8_shiftRight m, left_eq_add, Bool.toNat_eq_zero]

theorem runOf_peStep_mask (s : State) : (runOf .peStep s).mask = (patternNext s.cfg s.mask s.dir).1 := rfl

theorem runOf_peStep_mask_of_left {s : State} (hv : s.cfg.variant = .bounce)
    (h : (s.dir = .forward ∧ s.mask ≠ s.cfg.top) ∨ (s.dir = .reverse ∧ s.mask = s.cfg.bottom)) :
    (runOf .peStep s).mask = s.mask <<< 1 := by
  rw [runOf_peStep_mask, patternNext_bounce hv, bounceNext_of_left h]

theorem runOf_peStep_mask_of_right {s : State} (hv : s.cfg.variant = .bounce)
    (h : (s.dir = .reverse ∧ s.mask ≠ s.cfg.bottom) ∨ (s.dir = .forward ∧ s.mask = s.cfg.top)) :
    (runOf .peStep s).mask = s.mask >>> 1 := by
  rw [runOf_peStep_mask, patternNext_bounce hv, bounceNext_of_right h]

/-- The masks of the reference trajectory are closed under the reference Bounce step, in either direction, and have three lit LEDs. -/
theorem referenceMasks_closed {m : Byte} (hm : m ∈ ([0x07, 0x0E, 0x1C, 0x38, 0x70, 0xE0] : List Byte)) (d : Dir) :
    popcount8 (bounceNext 0xE0 0x07 m d).1 = 3 ∧
      (bounceNext 0xE0 0x07 m d).1 ∈ ([0x07, 0x0E, 0x1C, 0x38, 0x70, 0xE0] : List Byte) := by
  revert m
  cases d <;> decide

/-- Settles O41: a Bounce step is a shift to the left or to the right, and loses the bit it shifts out. -/
theorem bouncePreservesPopulationCountExactlyWhen : Obligations.BouncePreservesPopulationCountExactlyWhen := by
  refine ⟨fun s hv => ⟨_, exec_peStep s, fun hd hm => ?forward, fun hd hm => ?atTop, fun hd hm => ?reverse,
    fun hd hm => ?atBottom⟩, fun s hv ht hb hm => ⟨_, exec_peStep s, ?masks⟩⟩
  case forward =>
    rw [runOf_peStep_mask_of_left hv (.inl ⟨hd, hm⟩)]
    exact popcount8_shiftLeft_eq_iff s.mask
  case atTop =>
    rw [runOf_peStep_mask_of_right hv (.inr ⟨hd, hm⟩), ← hm]
    exact popcount8_shiftRight_eq_iff s.mask
  case reverse =>
    rw [runOf_peStep_mask_of_right hv (.inl ⟨hd, hm⟩)]
    exact popcount8_shiftRight_eq_iff s.mask
  case atBottom =>
    rw [runOf_peStep_mask_of_left hv (.inr ⟨hd, hm⟩), ← hm]
    exact popcount8_shiftLeft_eq_iff s.mask
  case masks =>
    rw [runOf_peStep_mask, patternNext_bounce hv, ht, hb]
    exact referenceMasks_closed hm s.dir

/-! ### What the engine depends on (44_pattern_engine.md R170) -/

/-- Two blocks alike in all that the engine's commands read. -/
structure SameEngine (s s' : State) : Prop where
  mask : s.mask = s'.mask
  dir : s.dir = s'.dir
  variant : s.cfg.variant = s'.cfg.variant
  top : s.cfg.top = s'.cfg.top
  bottom : s.cfg.bottom = s'.cfg.bottom

theorem patternNext_congr {c c' : Config} (hv : c.variant = c'.variant) (ht : c.top = c'.top) (hb : c.bottom = c'.bottom) :
    patternNext c = patternNext c' := by
  funext m d
  simp only [patternNext, hv, ht, hb]

/-- Each of the engine's commands keeps two blocks alike. -/
theorem SameEngine.exec_command {s s' : State} (hs : SameEngine s s') {i : Instr} (hi : i = .peStep ∨ i = .peFlip) :
    ∃ t t', exec i s = .next t ∧ exec i s' = .next t' ∧ SameEngine t t' := by
  obtain ⟨hmask, hdir, hvariant, htop, hbottom⟩ := hs
  obtain rfl | rfl := hi
  · have hnext := patternNext_congr hvariant htop hbottom
    refine ⟨_, _, exec_peStep s, exec_peStep s', ?_, ?_, hvariant, htop, hbottom⟩
    · rw [runOf_peStep_mask, runOf_peStep_mask, hnext, hmask, hdir]
    · rw [runOf_peStep_dir, runOf_peStep_dir, hnext, hmask, hdir]
  · cases hv : s.cfg.variant with
    | rotate =>
      exact ⟨_, _, exec_peFlip_rotate hv, exec_peFlip_rotate (hvariant ▸ hv),
        hmask, congrArg flipDir hdir, hvariant, htop, hbottom⟩
    | bounce =>
      exact ⟨_, _, exec_peFlip_bounce hv, exec_peFlip_bounce (hvariant ▸ hv), hmask, hdir, hvariant, htop, hbottom⟩

/-- Settles O44, by induction on the commands. -/
theorem patternEngineDependsOnItsOwnStateOnly : Obligations.PatternEngineDependsOnItsOwnStateOnly := by
  intro cmds s s' t t' hcmds hmask hdir hvariant htop hbottom
  have hs : SameEngine s s' := ⟨hmask, hdir, hvariant, htop, hbottom⟩
  clear hmask hdir hvariant htop hbottom
  induction cmds generalizing s s' with
  | nil =>
    rintro ⟨⟩ ⟨⟩
    exact ⟨hs.mask, hs.dir⟩
  | cons i rest ih =>
    obtain ⟨u, u', hu, hu', hsame⟩ := hs.exec_command (hcmds i List.mem_cons_self)
    rw [execAll_cons hu, execAll_cons hu']
    exact ih u u' (fun j hj => hcmds j (List.mem_cons_of_mem i hj)) hsame

/-! ### Runs of the engine -/

/-- The engine's own state: mask and direction (10_state.md R25, R26). -/
def State.engine (s : State) : Byte × Dir := (s.mask, s.dir)

/-- Under configuration `c`, `f` is one step of the pattern as far as the engine's own state goes. -/
def StepsPattern (c : Config) (f : State → State) : Prop :=
  ∀ s : State, s.cfg = c → (f s).cfg = c ∧ (f s).engine = Function.uncurry (patternNext c) s.engine

theorem StepsPattern.iterate {c : Config} {f : State → State} (hf : StepsPattern c f) (n : Nat) {s : State} (hs : s.cfg = c) :
    (f^[n] s).cfg = c ∧ (f^[n] s).engine = (Function.uncurry (patternNext c))^[n] s.engine := by
  induction n generalizing s with
  | zero => exact ⟨hs, rfl⟩
  | succ n ih =>
    obtain ⟨hcfg, hengine⟩ := hf s hs
    rw [Function.iterate_succ_apply, Function.iterate_succ_apply, ← hengine]
    exact ih hcfg

theorem stepsPattern_peStep (c : Config) : StepsPattern c (runOf .peStep) := by
  rintro s rfl
  exact ⟨rfl, rfl⟩

/-- `n` PE_STEPs run one after another. -/
theorem execAll_replicate_peStep (n : Nat) (s : State) :
    execAll (List.replicate n .peStep) s = .next ((runOf .peStep)^[n] s) := by
  induction n generalizing s with
  | zero => rfl
  | succ n ih => rw [List.replicate_succ, execAll_cons (exec_peStep s), ih, Function.iterate_succ_apply]

theorem engine_iterate_peStep (n : Nat) (s : State) :
    ((runOf .peStep)^[n] s).engine = (Function.uncurry (patternNext s.cfg))^[n] s.engine :=
  ((stepsPattern_peStep s.cfg).iterate n rfl).2

/-- `n` PE_STEPs respond with the mask of each of the `n` states after the first, in order. -/
theorem hist_iterate_peStep (n : Nat) (s : State) :
    ((runOf .peStep)^[n] s).hist = s.hist ++
      (List.iterate (Function.uncurry (patternNext s.cfg)) (Function.uncurry (patternNext s.cfg) s.engine) n).map
        fun x => .resp (.mask x.1) := by
  induction n generalizing s with
  | zero => exact (List.append_nil s.hist).symm
  | succ n ih =>
    obtain ⟨hcfg, hengine⟩ := stepsPattern_peStep s.cfg s rfl
    have hresp : (runOf .peStep s).hist = s.hist ++ [.resp (.mask (Function.uncurry (patternNext s.cfg) s.engine).1)] := rfl
    rw [Function.iterate_succ_apply, ih, hcfg, hengine, hresp, List.append_assoc, List.singleton_append, List.iterate,
      List.map_cons]

/-! ### Eight Rotate steps (44_pattern_engine.md R166) -/

/-- After `n` rotations each bit has moved `n` places around the byte. -/
theorem iterate_rotateNext (n : Nat) (x : Byte × Dir) :
    ((Function.uncurry rotateNext)^[n] x).2 = x.2 ∧
      ∀ i < 8, ((Function.uncurry rotateNext)^[n] x).1.getLsbD i = x.1.getLsbD ((i + n * rotateSource x.2) % 8) := by
  induction n with
  | zero => exact ⟨rfl, fun i hi => by rw [Function.iterate_zero_apply, Nat.zero_mul, Nat.add_zero, Nat.mod_eq_of_lt hi]⟩
  | succ n ih =>
    obtain ⟨hdir, hbits⟩ := ih
    rw [Function.iterate_succ_apply']
    refine ⟨(rotateNext_snd _ _).trans hdir, fun i hi => ?_⟩
    rw [Function.uncurry, getLsbD_rotateNext _ _ hi, hbits _ (Nat.mod_lt _ (by decide)), hdir, Nat.mod_add_mod, Nat.succ_mul,
      Nat.add_assoc, Nat.add_comm (rotateSource x.2)]

theorem isPeriodicPt_rotateNext (x : Byte × Dir) : Function.IsPeriodicPt (Function.uncurry rotateNext) 8 x := by
  obtain ⟨hdir, hbits⟩ := iterate_rotateNext 8 x
  refine Prod.ext (BitVec.eq_of_getLsbD_eq fun i hi => ?_) hdir
  rw [hbits i hi, Nat.add_mul_mod_self_left, Nat.mod_eq_of_lt hi]

/-- A step one way and a step the other way give the mask back. -/
theorem rotateNext_flipDir (m : Byte) (d : Dir) : (rotateNext (rotateNext m d).1 (flipDir d)).1 = m := by
  refine BitVec.eq_of_getLsbD_eq fun i hi => ?_
  rw [getLsbD_rotateNext _ _ hi, getLsbD_rotateNext _ _ (Nat.mod_lt _ (by decide))]
  congr 1
  cases d <;> simp only [flipDir, rotateSource] <;> omega

/-- Settles O40: the rotations are the Rotate step in its two directions, and eight of them move each bit once around the byte. -/
theorem eightRotateStepsReturnTheMask : Obligations.EightRotateStepsReturnTheMask := by
  refine ⟨fun m => ⟨rotateNext_flipDir m .reverse, rotateNext_flipDir m .forward⟩, fun s hv => ?eight⟩
  have hengine : ((runOf .peStep)^[8] s).engine = s.engine := by
    rw [engine_iterate_peStep, patternNext_rotate hv]
    exact isPeriodicPt_rotateNext s.engine
  exact ⟨_, execAll_replicate_peStep 8 s, congrArg Prod.fst hengine, congrArg Prod.snd hengine⟩

/-! ### The reference Bounce (44_pattern_engine.md R168) -/

/-- One step of the reference Bounce, with TOP 0xE0 and BOTTOM 0x07. -/
def referenceBounce : Byte × Dir → Byte × Dir := Function.uncurry (bounceNext 0xE0 0x07)

theorem patternNext_reference {c : Config} (hv : c.variant = .bounce) (ht : c.top = 0xE0) (hb : c.bottom = 0x07) :
    Function.uncurry (patternNext c) = referenceBounce := by
  rw [patternNext_bounce hv, ht, hb, referenceBounce]

theorem isPeriodicPt_referenceBounce : Function.IsPeriodicPt referenceBounce 10 (0x0E, .forward) := by
  change referenceBounce^[10] (0x0E, .forward) = (0x0E, .forward)
  decide

theorem referenceBounce_start : referenceBounce (0x07, .forward) = (0x0E, .forward) := by decide

/-- The ten outputs from the start mask. -/
theorem referenceBounce_outputs : (List.iterate referenceBounce (0x0E, .forward) 10).map Prod.fst =
    ([0x0E, 0x1C, 0x38, 0x70, 0xE0, 0x70, 0x38, 0x1C, 0x0E, 0x07] : List Byte) := by decide

/-- The direction after each of the first eleven outputs. -/
theorem referenceBounce_dir : ∀ n < 12, 1 ≤ n →
    ((referenceBounce^[n] (0x07, .forward)).2 = .forward ↔ n ≤ 5 ∨ n = 11) := by decide

/-- From the first output on, ten steps more give the same mask and direction. -/
theorem referenceBounce_period (n : Nat) :
    referenceBounce^[n + 11] (0x07, .forward) = referenceBounce^[n + 1] (0x07, .forward) :=
  calc referenceBounce^[n + 11] (0x07, .forward)
    _ = referenceBounce^[n + 10] (0x0E, .forward) := by rw [Function.iterate_succ_apply, referenceBounce_start]
    _ = referenceBounce^[n] (0x0E, .forward) := by rw [Function.iterate_add_apply, isPeriodicPt_referenceBounce.eq]
    _ = referenceBounce^[n + 1] (0x07, .forward) := by rw [Function.iterate_succ_apply, referenceBounce_start]

/-- Settles O42: PE_STEPs take the engine along the trajectory of the reference Bounce. -/
theorem referenceBounceHasPeriodTen : Obligations.ReferenceBounceHasPeriodTen := by
  intro s hv ht hb hm hd
  have hstart : s.engine = (0x07, .forward) := Prod.ext hm hd
  have hrun (n : Nat) : ((runOf .peStep)^[n] s).engine = referenceBounce^[n] (0x07, .forward) := by
    rw [engine_iterate_peStep, patternNext_reference hv ht hb, hstart]
  refine ⟨fun n => ?period, _, execAll_replicate_peStep 10 s, ?outputs, fun n h1 h11 => ?dirs⟩
  case period =>
    have hengine : ((runOf .peStep)^[n + 1] s).engine = ((runOf .peStep)^[n + 11] s).engine := by
      rw [hrun, hrun, referenceBounce_period]
    exact ⟨_, _, execAll_replicate_peStep _ s, execAll_replicate_peStep _ s, congrArg Prod.fst hengine, congrArg Prod.snd hengine⟩
  case outputs =>
    rw [hist_iterate_peStep, patternNext_reference hv ht hb, hstart, referenceBounce_start, ← referenceBounce_outputs,
      List.map_map]
    rfl
  case dirs =>
    have hdir : ((runOf .peStep)^[n] s).dir = (referenceBounce^[n] (0x07, .forward)).2 := congrArg Prod.snd (hrun n)
    exact ⟨_, execAll_replicate_peStep n s, by rw [hdir]; exact referenceBounce_dir n (by omega) h1⟩

/-! ### The reference program (45_control_loop.md R195) -/

/-- A ready block under the reference program takes TICK, and the issuer stays as it is. -/
theorem step_of_loop {s : State} (hs : s.Ready) (hi : s.issuer = Issuer.loop) : step s = .next (runOf .tick s) := by
  have htake : s.takeCommand = some (encode .tick, s) := by
    rw [takeCommand_of_take (iss := s.issuer) (by rw [hi]; rfl)]
    rfl
  rw [step_of_decoded hs htake (decodeOfEncodeIsTheInstruction _ .tick (fits_zero _))]
  exact exec_of_admitted (firstRefusal_tick s.cfg)

/-- One pass of the reference program: a TICK and the end of its delay. -/
def loopPass (s : State) : State := (runOf .tick s).delayEnd

@[simp] theorem loopPass_cfg (s : State) : (loopPass s).cfg = s.cfg := runOf_cfg .tick s

theorem loopPass_ready {s : State} (hs : s.Ready) : (loopPass s).Ready := ⟨(runOf_refused .tick s).trans hs.1, rfl⟩

@[simp] theorem loopPass_issuer (s : State) : (loopPass s).issuer = s.issuer := runOf_issuer .tick s

/-- Each pass takes two steps of the machine. -/
theorem core_run_loop (n k : Nat) {s : State} (hs : s.Ready) (hi : s.issuer = Issuer.loop) :
    Sys2Proof.core.run (2 * n + k) s = Sys2Proof.core.run k (loopPass^[n] s) := by
  induction n generalizing s with
  | zero => rw [Nat.mul_zero, Nat.zero_add, Function.iterate_zero_apply]
  | succ n ih =>
    have hdelay : step (runOf .tick s) = .next (loopPass s) := step_of_busy ((runOf_refused .tick s).trans hs.1) rfl
    calc Sys2Proof.core.run (2 * (n + 1) + k) s
      _ = Sys2Proof.core.run (2 * n + k + 1 + 1) s := by congr 1; omega
      _ = Sys2Proof.core.run (2 * n + k) (loopPass s) := by
        rw [core_run_of_step (step_of_loop hs hi), core_run_of_step hdelay]
      _ = Sys2Proof.core.run k (loopPass^[n + 1] s) := by
        rw [ih (loopPass_ready hs) ((loopPass_issuer s).trans hi), Function.iterate_succ_apply]

/-- In the Bounce variant a pass is a step of the pattern, whatever the button does (45_control_loop.md R196). -/
theorem stepsPattern_loopPass {c : Config} (hv : c.variant = .bounce) : StepsPattern c loopPass := by
  rintro s rfl
  have hnext : tickNext s = patternNext s.cfg s.mask s.dir := by rw [tickNext, tickDir_bounce hv]
  refine ⟨loopPass_cfg s, Prod.ext ?mask ?dir⟩
  case mask => exact (runOf_tick_mask s).trans (congrArg Prod.fst hnext)
  case dir => exact (runOf_tick_dir s).trans (congrArg Prod.snd hnext)

/-- After a TICK the span of ODR shows the mask (45_control_loop.md R192). -/
theorem runOf_tick_span {c : Config} {s : State} (hs : s.cfg = c) (hc : c.check = none) {i : Nat} (hi : i < 8) :
    (runOf .tick s).regs[c.outPort].odr.getLsbD (c.patternLsb + i) = (runOf .tick s).mask.getLsbD i := by
  subst hs
  have hspan := check_none_span hc
  have hwidth := check_none_width hc
  have hbelow : s.cfg.patternLsb + i < s.cfg.w := by omega
  have hin : s.cfg.patternLsb ≤ s.cfg.patternLsb + i ∧ s.cfg.patternLsb + i < s.cfg.patternLsb + 8 := by omega
  rw [runOf_tick_regs, Memory.get_set_same, getLsbD_truncW, decide_eq_true hbelow, Bool.true_and,
    getLsbD_patternMerge _ _ _ _ (by omega), if_pos hin, Nat.add_sub_cancel_left, runOf_tick_mask]

/-- Settles O50: ten passes are one period of the reference Bounce, and the last of them leaves its mask in the span. -/
theorem referenceBounceLoopIsPeriodic : Obligations.ReferenceBounceLoopIsPeriodic := by
  intro n s hs hi hc _ hv ht hb hm hd
  have hpass := stepsPattern_loopPass hv
  have hstart : s.engine = (0x0E, .forward) := Prod.ext hm hd
  have hengine : (loopPass^[10 * (n + 1)] s).engine = (0x0E, .forward) := by
    rw [(hpass.iterate _ rfl).2, patternNext_reference hv ht hb, hstart]
    exact isPeriodicPt_referenceBounce.mul_const (n + 1)
  have hmask : (loopPass^[10 * (n + 1)] s).mask = 0x0E := congrArg Prod.fst hengine
  refine ⟨loopPass^[10 * (n + 1)] s, ?run, ?ready, hmask, congrArg Prod.snd hengine, fun i hlt => ?leds⟩
  case run =>
    rw [show 20 * (n + 1) = 2 * (10 * (n + 1)) + 0 by omega, core_run_loop _ 0 hs hi]
    rfl
  case ready => exact Function.Iterate.rec State.Ready hs (fun _ => loopPass_ready) _
  case leds =>
    have hcfg : (loopPass^[10 * n + 9] s).cfg = s.cfg := (hpass.iterate _ rfl).1
    rw [← hmask, show 10 * (n + 1) = 10 * n + 9 + 1 by omega, Function.iterate_succ_apply']
    exact runOf_tick_span hcfg hc hlt

end Sys2Proof.Machine

/-! ### The Control Loop (45_control_loop.md) -/

namespace Sys2Proof.Machine

/-- No check refuses TICK, so its rule always runs. -/
theorem exec_tick (s : State) : exec .tick s = .next (runOf .tick s) :=
  exec_of_admitted (firstRefusal_tick s.cfg)

/-- Settles O46: below bit 32 the merge is known bit by bit, and at or above it both words have zeros. -/
theorem patternMergeFillsTheSpanOnly : Obligations.PatternMergeFillsTheSpanOnly := by
  intro c o m hc ho
  have hspan := check_none_span hc
  have hwidth := check_none_width hc
  refine ⟨fits_patternMerge m hspan ho, fun i hi => ?span, fun j hj => ?outside⟩
  case span => rw [getLsbD_patternMerge _ _ _ _ (by omega), if_pos (by omega), Nat.add_sub_cancel_left]
  case outside =>
    rcases Nat.lt_or_ge j 32 with hlt | hge
    · rw [getLsbD_patternMerge _ _ _ _ hlt, if_neg (by omega)]
    · rw [BitVec.getLsbD_of_ge _ _ hge, BitVec.getLsbD_of_ge _ _ hge]

/-! One TICK: what it samples, steps, writes and leaves -/

/-- Under a valid configuration the sample is the button bit of the draw itself, for the cut to `W` bits keeps it (R191). -/
theorem tickSample_eq {s : State} (hc : s.cfg.check = none) :
    tickSample s = ((s.env.next.getLsbD s.cfg.buttonBit) != s.cfg.inputInvert) := by
  rw [tickSample, sample, getLsbD_truncW, decide_eq_true (check_none_buttonBit hc), Bool.true_and]

/-- The direction flips before the step exactly on a rising edge in the Rotate variant (R190, R196). -/
theorem tickDir_ne_iff (s : State) :
    tickDir s ≠ s.dir ↔ s.prev = false ∧ tickSample s = true ∧ s.cfg.variant = .rotate := by
  rw [tickDir, ← and_assoc, ← edge_eq_true_iff]
  split
  case isTrue hflip => exact iff_of_true (flipDir_ne s.dir) hflip
  case isFalse hkeep => exact iff_of_false (absurd rfl) hkeep

theorem patternStepped_tick (s : State) :
    PatternStepped s.cfg s.mask (runOf .tick s).mask (tickDir s) (runOf .tick s).dir := by
  rw [runOf_tick_mask, runOf_tick_dir]
  exact patternStepped_patternNext s.cfg s.mask (tickDir s)

@[simp] theorem runOf_tick_env (s : State) : (runOf .tick s).env = s.env.advance := by simp [runOf]

@[simp] theorem runOf_tick_busy (s : State) : (runOf .tick s).busy = true := rfl

/-- Below `W`, ODR of the output port has the new mask in the span and its old bits elsewhere (R192). -/
theorem getLsbD_runOf_tick_odr {s : State} (hc : s.cfg.check = none) {j : Nat} (hj : j < s.cfg.w) :
    (runOf .tick s).regs[s.cfg.outPort].odr.getLsbD j =
      if s.cfg.patternLsb ≤ j ∧ j < s.cfg.patternLsb + 8 then (runOf .tick s).mask.getLsbD (j - s.cfg.patternLsb)
      else s.regs[s.cfg.outPort].odr.getLsbD j := by
  have hwidth := check_none_width hc
  rw [runOf_tick_regs, Memory.get_set_same, getLsbD_truncW, decide_eq_true hj, Bool.true_and,
    getLsbD_patternMerge _ _ _ _ (by omega), runOf_tick_mask]

theorem runOf_tick_regs_other (s : State) {q : Port} (hq : q ≠ s.cfg.outPort) : (runOf .tick s).regs[q] = s.regs[q] := by
  rw [runOf_tick_regs, Memory.get_set_other _ _ hq]

theorem readByte_runOf_tick_outside (s : State) {a : Nat} (ha : ¬ s.cfg.inRegister s.cfg.outPort .odr a) :
    (runOf .tick s).readByte a = s.readByte a := by
  obtain ⟨hclken, hmode⟩ := runOf_setup .tick s s.cfg.outPort
  exact readByte_outside (runOf_cfg .tick s) hclken hmode (fun _ hq => runOf_tick_regs_other s hq) ha

/-- The word recorded as written is the word ODR then holds. -/
theorem runOf_tick_hist_odr (s : State) : (runOf .tick s).hist =
    s.hist ++ [.rd s.cfg.inPort .idr (truncW s.cfg.w s.env.next), .rd s.cfg.outPort .odr s.regs[s.cfg.outPort].odr,
      .wr s.cfg.outPort .odr (runOf .tick s).regs[s.cfg.outPort].odr, .delayStart s.cfg.tickDuration] := by
  rw [runOf_tick_regs, Memory.get_set_same]
  exact runOf_tick_hist s

/-- Settles O45: the arm masks `H[11:0]` and does not use `O`, and the rule's run is one pass of the loop, part by part. -/
theorem tickRunsOnePassOfTheLoop : Obligations.TickRunsOnePassOfTheLoop := by
  refine ⟨fun w h o hop => ?words, fun s hc _ => ?effect⟩
  case words => rw [decode_op_tick (cmd := ⟨h, o⟩) (by rw [hop]; rfl), accept_plain]
  case effect =>
    have hflip := tickDir_ne_iff s
    exact ⟨_, tickSample s, tickDir s, exec_tick s, tickSample_eq hc, runOf_tick_prev s, hflip.mpr,
      fun hkeep => of_not_not (mt hflip.mp hkeep), patternStepped_tick s, fun _ hj => getLsbD_runOf_tick_odr hc hj,
      runOf_tick_hist_odr s, runOf_tick_busy s, runOf_tick_env s, runOf_cfg .tick s, runOf_refused .tick s,
      runOf_issuer .tick s, runOf_setup .tick s, fun _ hq => runOf_tick_regs_other s hq,
      fun _ ha => readByte_runOf_tick_outside s ha⟩

/-! The button in the Bounce variant (R196) -/

/-- In the Bounce variant the pattern a TICK commits depends on neither the sample nor the previous one. -/
theorem tickNext_bounce {s : State} (hv : s.cfg.variant = .bounce) : tickNext s = patternNext s.cfg s.mask s.dir := by
  rw [tickNext, tickDir_bounce hv]

/-- Settles O47: both blocks commit the same pattern, and the registers and the events after the draw follow from it. -/
theorem bounceIgnoresTheButton : Obligations.BounceIgnoresTheButton := by
  intro s e pv hv
  have hnext : tickNext { s with env := e, prev := pv } = tickNext s := by
    rw [tickNext_bounce hv]
    exact tickNext_bounce (s := { s with env := e, prev := pv }) hv
  refine ⟨_, _, _, exec_tick s, exec_tick _, ?mask, ?dir, ?regs, rfl, ?refused, ?cfg, ?issuer, runOf_tick_hist s, ?hist,
    runOf_tick_prev s, runOf_tick_prev _, runOf_tick_env s, runOf_tick_env _⟩
  case mask => rw [runOf_tick_mask, runOf_tick_mask, hnext]
  case dir => rw [runOf_tick_dir, runOf_tick_dir, hnext]
  case regs => rw [runOf_tick_regs, runOf_tick_regs, hnext]
  case refused => rw [runOf_refused, runOf_refused]
  case cfg => rw [runOf_cfg, runOf_cfg]
  case issuer => rw [runOf_issuer, runOf_issuer]
  case hist => rw [runOf_tick_hist, hnext]

/-! The first TICK (R197) -/

theorem launchRegs_odr {c : Config} {p : Port} (hp : c.hasPort p = true) : (launchRegs c p).odr = truncW c.w c.odr0[p] := by
  rw [launchRegs, if_pos hp]

/-- The reset state in an environment that has its draws ready. -/
def resetIn (c : Config) (e : Env) : State := { State.resetOf c with env := e }

theorem getLsbD_resetIn_odr {c : Config} (e : Env) {p : Port} (hp : c.hasPort p = true) {j : Nat} (hj : j < c.w) :
    (resetIn c e).regs[p].odr.getLsbD j = c.odr0[p].getLsbD j := by
  change (State.resetOf c).regs[p].odr.getLsbD j = _
  rw [resetOf_get, launchRegs_odr hp, getLsbD_truncW, decide_eq_true hj, Bool.true_and]

/-- Settles O48: at reset the previous sample is 0, the mask is INIT_MASK and ODR holds ODR0. -/
theorem firstTickShowsTheStepOfTheInitialMask : Obligations.FirstTickShowsTheStepOfTheInitialMask := by
  intro c e hc
  have hflip := tickDir_ne_iff (resetIn c e)
  refine ⟨_, _, exec_tick (resetIn c e), ⟨fun h => ?flipped, fun ⟨hv, hsmp⟩ => ?flips⟩,
    patternStepped_tick (resetIn c e), fun i hi => runOf_tick_span (s := resetIn c e) rfl hc hi,
    fun j hj hout => ?outside⟩
  case flipped =>
    obtain ⟨-, hsmp, hv⟩ := hflip.mp h
    exact ⟨hv, hsmp⟩
  case flips => exact hflip.mpr ⟨rfl, hsmp, hv⟩
  case outside =>
    have hodr := getLsbD_runOf_tick_odr (s := resetIn c e) hc hj
    have hnot : ¬ (c.patternLsb ≤ j ∧ j < c.patternLsb + 8) := by omega
    exact (hodr.trans (if_neg hnot)).trans (getLsbD_resetIn_odr e (check_none_outPort hc) hj)

/-! The reference program (R193 to R195) -/

theorem loopPass_hist (s : State) : (loopPass s).hist =
    s.hist ++ [.rd s.cfg.inPort .idr (truncW s.cfg.w s.env.next), .rd s.cfg.outPort .odr s.regs[s.cfg.outPort].odr,
      .wr s.cfg.outPort .odr (runOf .tick s).regs[s.cfg.outPort].odr, .delayStart s.cfg.tickDuration, .delayEnd] := by
  rw [loopPass, State.delayEnd_hist, runOf_tick_hist_odr, List.append_assoc]
  rfl

theorem odrWrites_append (p : Port) (h es : List Event) : odrWrites p (h ++ es) = odrWrites p h ++ odrWrites p es :=
  List.filterMap_append

/-- A pass shows as one more write of the output port's ODR. -/
theorem odrWrites_loopPass {s : State} {p : Port} (hp : s.cfg.outPort = p) : odrWrites p (loopPass s).hist =
    odrWrites p s.hist ++ [(runOf .tick s).regs[p].odr] := by
  subst hp
  rw [loopPass_hist, odrWrites_append]
  simp [odrWrites]

/-- After `n` passes the reference program is still running. -/
theorem iterate_loopPass_running (n : Nat) {s : State} (hs : s.Ready) (hi : s.issuer = Issuer.loop) :
    (loopPass^[n] s).Ready ∧ (loopPass^[n] s).issuer = Issuer.loop := by
  induction n with
  | zero => exact ⟨hs, hi⟩
  | succ n ih =>
    obtain ⟨hready, hissuer⟩ := ih
    rw [Function.iterate_succ_apply']
    exact ⟨loopPass_ready hready, (loopPass_issuer _).trans hissuer⟩

/-- Each of `n` passes records five events, one of them a write of the output port's ODR. -/
theorem iterate_loopPass_recorded (n : Nat) (s : State) :
    (loopPass^[n] s).cfg = s.cfg ∧ (loopPass^[n] s).hist.length = s.hist.length + 5 * n ∧
      (odrWrites s.cfg.outPort (loopPass^[n] s).hist).length = (odrWrites s.cfg.outPort s.hist).length + n := by
  induction n with
  | zero => exact ⟨rfl, rfl, rfl⟩
  | succ n ih =>
    obtain ⟨hcfg, hlength, hwrites⟩ := ih
    have hwritten := odrWrites_loopPass (congrArg Config.outPort hcfg)
    rw [Function.iterate_succ_apply']
    refine ⟨(loopPass_cfg _).trans hcfg, ?events, ?writes⟩
    case events => rw [loopPass_hist, List.length_append, hlength]; rfl
    case writes => rw [hwritten, List.length_append, hwrites]; rfl

/-- Settles O49: two steps are one pass, and one step more of the running program is a TICK, which sets the delay bit. -/
theorem referenceLoopAlternatesTickAndDelayEnd : Obligations.ReferenceLoopAlternatesTickAndDelayEnd := by
  intro n s hs hi
  obtain ⟨hready, hissuer⟩ := iterate_loopPass_running n hs hi
  obtain ⟨-, hlength, hwrites⟩ := iterate_loopPass_recorded n s
  refine ⟨⟨loopPass^[n] s, core_run_loop n 0 hs hi, hready, hissuer, hlength, hwrites⟩,
    runOf .tick (loopPass^[n] s), ?run, runOf_tick_busy _, (runOf_refused .tick _).trans hready.1⟩
  calc Sys2Proof.core.run (2 * n + 1) s
    _ = Sys2Proof.core.run 1 (loopPass^[n] s) := core_run_loop n 1 hs hi
    _ = .next (runOf .tick (loopPass^[n] s)) := core_run_of_step (step_of_loop hready hissuer) 0

end Sys2Proof.Machine

/-! ### Exceptions, refusals and holds (60_exceptions.md) -/

namespace Sys2Proof.Machine

/-! What the block does with the command it takes -/

theorem step_of_marked {s : State} (h : s.refused ≠ none) : step s = .fault .stuckAfterRefusal := by
  obtain ⟨r, hr⟩ := Option.ne_none_iff_exists'.mp h
  exact step_of_refused hr

/-- The command taken leaves the configuration and the refusal mark as they are. -/
theorem takeCommand_cfg_refused {s s' : State} {cmd : Command} (h : s.takeCommand = some (cmd, s')) :
    s'.cfg = s.cfg ∧ s'.refused = s.refused := by
  obtain ⟨iss, -, rfl⟩ := takeCommand_some h
  exact ⟨rfl, rfl⟩

/-- Lines 5 to 9 of R216: a decoded command that a check of its rule refuses. -/
theorem step_of_firstRefusal {s s' : State} {cmd : Command} {i : Instr} {r : Reason} (hs : s.Ready)
    (ht : s.takeCommand = some (cmd, s')) (hd : decode s.cfg.w cmd = .command i) (hf : i.firstRefusal s.cfg = some r) :
    step s = .next (s'.refuse r) := by
  rw [step_of_decoded hs ht hd]
  exact exec_of_refused (by rw [(takeCommand_cfg_refused ht).1, hf])

/-- Line 10 of R216: a command that no check refuses runs its rule, which leaves the mark clear. -/
theorem exec_taken_of_admitted {s s' : State} {cmd : Command} {i : Instr} (hr : s.refused = none)
    (ht : s.takeCommand = some (cmd, s')) (hf : i.firstRefusal s.cfg = none) :
    exec i s' = .next (runOf i s') ∧ (runOf i s').refused = none := by
  obtain ⟨hcfg, hmark⟩ := takeCommand_cfg_refused ht
  exact ⟨exec_of_admitted (by rw [hcfg, hf]), by rw [runOf_refused, hmark, hr]⟩

/-- A step has an answer unless the mark is set: DelayEnd, waiting, the decoder's refusal, or what the command's rule answers. -/
theorem step_total {s : State} (hr : s.refused = none) : ∃ t, step s = .next t := by
  cases hb : s.busy with
  | true => exact ⟨_, step_of_busy hr hb⟩
  | false =>
    cases ht : s.takeCommand with
    | none => exact ⟨_, step_of_idle ⟨hr, hb⟩ ht⟩
    | some taken =>
      cases hd : decode s.cfg.w taken.1 with
      | refuse r => exact ⟨_, step_of_undecoded ⟨hr, hb⟩ ht hd⟩
      | command i =>
        rw [step_of_decoded ⟨hr, hb⟩ ht hd]
        exact exec_total i taken.2

/-! The statements -/

/-- Settles O20, by the cases of one step: DelayEnd, waiting and a rule's run leave the mark clear; a refusal sets it and writes nothing
but it and the issuer. -/
theorem refusalSetsTheMarkAndNothingElse : Obligations.RefusalSetsTheMarkAndNothingElse := by
  intro s t r hr h hmark
  have hstuck : step t = .fault .stuckAfterRefusal := step_of_refused hmark
  have hclear : t.refused ≠ none := by rw [hmark]; exact Option.some_ne_none r
  obtain ⟨-, ⟨-, rfl⟩ | ⟨-, rfl | ⟨iss, ⟨r', rfl⟩ | ⟨i, -, rfl⟩⟩⟩⟩ := step_cases h
  · exact absurd hr hclear
  · exact absurd hr hclear
  · exact ⟨rfl, rfl, rfl, rfl, rfl, rfl, rfl, rfl, hstuck⟩
  · exact absurd ((runOf_refused i (s.withIssuer iss)).trans hr) hclear

/-- Settles O21: lines 1 and 2 come before the command is taken, lines 3 and 4 are the decoder's, and a command with neither kind of
malformed field decodes, so that lines 5 to 10 are its rule's. -/
theorem outcomeFollowsThePriorityOrder : Obligations.OutcomeFollowsThePriorityOrder := by
  intro s s' cmd ht
  refine ⟨step_of_marked, step_of_busy, fun hs => ⟨fun hop => ?opcode, fun hop hz => ?field, fun hop hz => ?rule⟩⟩
  case opcode => exact step_of_undecoded hs ht (decode_reserved hop)
  case field =>
    obtain ⟨h1, h12⟩ := (hasReservedOpcode_or_opcode cmd.h).resolve_left hop
    exact step_of_undecoded hs ht (decode_reservedField h1 h12 hz)
  case rule =>
    obtain ⟨i, hd⟩ := exists_decode hop hz
    exact ⟨i, hd, fun r => step_of_firstRefusal hs ht hd,
      fun hf => ⟨step_of_decoded hs ht hd, runOf i s', exec_taken_of_admitted hs.1 ht hf⟩⟩

/-- Settles O11: the mark after reset is what the checks of the configuration answer. -/
theorem refusedConfigurationNeverSteps : Obligations.RefusedConfigurationNeverSteps :=
  fun c hc => step_of_marked (s := State.resetOf c) hc

/-- Settles O16: the step is total on a clear mark, and the fault on a set one. -/
theorem onlyARefusedBlockHasNoStep : Obligations.OnlyARefusedBlockHasNoStep :=
  fun _ => ⟨step_total, step_of_marked⟩

/-- Settles O19: DelayEnd leaves a ready block with the same issuer, so the pending command is the one taken next. -/
theorem commandsHoldUntilDelayEnd : Obligations.CommandsHoldUntilDelayEnd := by
  intro s hr hb
  have hready : s.delayEnd.Ready := ⟨hr, rfl⟩
  refine ⟨s.delayEnd, step_of_busy hr hb, rfl, rfl, hr, rfl, rfl, rfl, rfl, rfl, rfl, rfl, fun cmd t' ht => ?pending⟩
  exact ⟨fun i => step_of_decoded hready ht, fun r => step_of_undecoded hready ht⟩

end Sys2Proof.Machine

/-! ### Reset and the configuration's checks (70_reset_and_hazards.md) -/

namespace Sys2Proof.Machine

/-- R241: the configuration's own defect is reported before a second bus master (log 13). -/
theorem check_of_invalid {c : Config} (h : c.valid = false) : c.check = some .invalidConfig := by
  rw [Config.check, if_neg (Bool.eq_false_iff.mp h)]

/-- R241, check 8, in a configuration that passes the checks before it. -/
theorem check_of_secondMaster {c : Config} (h : c.valid = true) (hm : c.secondMaster = true) :
    c.check = some .secondAgent := by
  rw [Config.check, if_pos h, if_pos hm]

/-- Settles O10: `valid_iff` with `hasPort` and `accessBytes` read as R241 writes them, and what the checks answer on each side. -/
theorem configurationChecks : Obligations.ConfigurationChecks := by
  intro c
  refine ⟨?valid, check_none_iff c, check_of_invalid, check_of_secondMaster⟩
  case valid => simpa only [hasPort_iff, Config.accessBytes] using valid_iff c

/-- R240: W-bit launch values reach the registers of a present port uncut. -/
theorem launchRegs_of_fits {c : Config} {p : Port} (hp : c.hasPort p = true) (hclken : Word.fits c.w c.clken0[p] = true)
    (hmode : Word.fits c.w c.mode0[p] = true) (hodr : Word.fits c.w c.odr0[p] = true) :
    launchRegs c p = { clken := c.clken0[p], mode := c.mode0[p], odr := c.odr0[p] } := by
  rw [launchRegs, if_pos hp, truncW_of_fits hclken, truncW_of_fits hmode, truncW_of_fits hodr]

/-- Settles O9: the registers are the launch values, uncut because they fit; every other field is set as R240 says. -/
theorem resetSetsEveryField : Obligations.ResetSetsEveryField := by
  intro c hfits
  refine ⟨fun p hp => ?regs, rfl, rfl, rfl, rfl, rfl, Iff.rfl⟩
  case regs =>
    obtain ⟨hclken, hmode, hodr⟩ := hfits p hp
    rw [resetOf_get, launchRegs_of_fits hp hclken hmode hodr]
    exact ⟨rfl, rfl, rfl⟩

end Sys2Proof.Machine
